-- ==== Sys2Proof/Word.lean ====
section
/-! DEFINITION. The word types of the machine: the widths the spec gives its registers, addresses and instruction
fields (spec/10_state.md R20, R23, R24; spec/30_encoding.md R71). Every value is unsigned (spec/00_scope.md R8). -/

namespace Sys2Proof

/-- One byte: a V register, a memory cell, the NN field. -/
abbrev Byte := BitVec 8

/-- One 16-bit word: an instruction, PC, I, a call-stack entry. -/
abbrev Word := BitVec 16

/-- The X and Y fields: a general register's number. -/
abbrev RegIx := BitVec 4

/-- The N field: a sprite height or a sub-opcode. -/
abbrev Nibble := BitVec 4

/-- The NNN field: a 12-bit address. -/
abbrev Addr12 := BitVec 12

/-- The number of VF, the flag register (spec/10_state.md R21). -/
abbrev vf : RegIx := 0xF#4

end Sys2Proof
end

