-- ==== Sys2Proof/Config.lean ====
section
/-! DEFINITION. What is fixed for this hardware (the parameter table of spec/00_scope.md R6) and the free values: the inputs
of an iteration that no listed input fixes (spec/40_cycle.md R100, spec/93_implementation_defined.md U5, U6). -/

namespace Sys2Proof

/-- STACK_DEPTH: entries of the call stack (R6, R27; the spec's decision D2, log 1). -/
abbrev Config.stackDepth : Nat := 16

/-- TIMER_FRAC_BITS: fractional bits of a timer (R6, R29; decision D13, log 1). The timer operations take it as an argument; 0 with
e in 0, 1 is the fixed-rate timer (spec/45_timers.md R212). -/
def Config.timerFracBits : Nat := 8

/-- I_MASK_12: false, FX1E does not mask I to 12 bits (R6, R23, R171; decision D4, log 1). -/
def Config.iMask12 : Bool := false

/-- FX1E_CLEAR_VF: true, FX1E writes VF = 0 where there is no overflow (R6, R171; decision D5, log 1). -/
def Config.fx1eClearVf : Bool := true

/-- DECODE_STRICT: false, the ignored bits of 00E0, 00EE, 5XY0 and 9XY0 are not examined (R6, R76; decision D10, log 1). -/
def Config.decodeStrict : Bool := false

/-- MEM_SIZE: bytes of memory, addresses 0x000..0xFFF (R6, R50). -/
def Config.memSize : Nat := 0x1000

/-- FONT_BASE: where the font table lies (R6, R40). -/
def Config.fontBase : Nat := 0x050

/-- PROGRAM_BASE: where a program is loaded and where execution starts (R6, R51, R283). -/
def Config.programBase : Nat := 0x200

/-- A font: 16 glyphs of 5 bytes (R40). -/
abbrev FontTable := Vector Byte 80

/-- The bytes of glyphs 0 to 7 (R41). -/
def Config.glyphsLow : List Byte :=
  [0xF0, 0x90, 0x90, 0x90, 0xF0] ++ [0x20, 0x60, 0x20, 0x20, 0x70] ++
  [0xF0, 0x10, 0xF0, 0x80, 0xF0] ++ [0xF0, 0x10, 0xF0, 0x10, 0xF0] ++
  [0x90, 0x90, 0xF0, 0x10, 0x10] ++ [0xF0, 0x80, 0xF0, 0x10, 0xF0] ++
  [0xF0, 0x80, 0xF0, 0x90, 0xF0] ++ [0xF0, 0x10, 0x20, 0x40, 0x40]

/-- The bytes of glyphs 8 to F (R41). -/
def Config.glyphsHigh : List Byte :=
  [0xF0, 0x90, 0xF0, 0x90, 0xF0] ++ [0xF0, 0x90, 0xF0, 0x10, 0xF0] ++
  [0xF0, 0x90, 0xF0, 0x90, 0x90] ++ [0xE0, 0x90, 0xE0, 0x90, 0xE0] ++
  [0xF0, 0x80, 0x80, 0x80, 0xF0] ++ [0xE0, 0x90, 0x90, 0x90, 0xE0] ++
  [0xF0, 0x80, 0xF0, 0x80, 0xF0] ++ [0xF0, 0x80, 0xF0, 0x80, 0x80]

/-- FONT_TABLE: the spec's default font (R41; decision D14: its bytes are PRESUMED by the spec, log 7). -/
def Config.fontTable : FontTable :=
  ⟨(Config.glyphsLow ++ Config.glyphsHigh).toArray, by decide⟩

/-- The elapsed time `e` the host supplies to iteration number `n`, where no input is listed: any natural (R100, R211, U6;
log 3). No body: nothing constrains it. -/
opaque Config.freeElapsed (n : Nat) : Nat

/-- The key snapshot KEY of iteration number `n`, where no input is listed: any value (R100, R231; log 3). -/
opaque Config.freeKeys (n : Nat) : BitVec 16

/-- The random byte RND of iteration number `n`, where no input is listed: any value (R100, R151, U5; log 3). -/
opaque Config.freeRnd (n : Nat) : Byte

end Sys2Proof
end

