-- ==== Sys2Proof/Syntax.lean ====
section
/-! DEFINITION. The instructions: one constructor per row of spec/opcode_table.json (spec/30_encoding.md R78) and one for the
unmatched words (R83). A constructor carries the fields its row names (R71, R73). -/

namespace Sys2Proof

/-- The decoded form of an instruction word (R83). -/
inductive Instr where
  /-- 00E0 `CLS`: clear the framebuffer. -/
  | cls
  /-- 00EE `RET`: return from subroutine. -/
  | ret
  /-- 1NNN `JP NNN`: jump. -/
  | jp (nnn : Addr12)
  /-- 2NNN `CALL NNN`: call subroutine. -/
  | call (nnn : Addr12)
  /-- 3XNN `SE VX, NN`: skip if equal to immediate. -/
  | seImm (x : RegIx) (nn : Byte)
  /-- 4XNN `SNE VX, NN`: skip if not equal to immediate. -/
  | sneImm (x : RegIx) (nn : Byte)
  /-- 5XY0 `SE VX, VY`: skip if registers equal. -/
  | seReg (x y : RegIx)
  /-- 6XNN `LD VX, NN`: load immediate. -/
  | ldImm (x : RegIx) (nn : Byte)
  /-- 7XNN `ADD VX, NN`: add immediate. -/
  | addImm (x : RegIx) (nn : Byte)
  /-- 8XY0 `LD VX, VY`: copy. -/
  | ldReg (x y : RegIx)
  /-- 8XY1 `OR VX, VY`. -/
  | orReg (x y : RegIx)
  /-- 8XY2 `AND VX, VY`. -/
  | andReg (x y : RegIx)
  /-- 8XY3 `XOR VX, VY`. -/
  | xorReg (x y : RegIx)
  /-- 8XY4 `ADD VX, VY`: add with carry out. -/
  | addReg (x y : RegIx)
  /-- 8XY5 `SUB VX, VY`: subtract, flag = no borrow. -/
  | subReg (x y : RegIx)
  /-- 8XY6 `SHR VX`: shift right by one; Y is kept and has no effect (R148). -/
  | shr (x y : RegIx)
  /-- 8XY7 `SUBN VX, VY`: reverse subtract. -/
  | subn (x y : RegIx)
  /-- 8XYE `SHL VX`: shift left by one; Y is kept and has no effect (R150). -/
  | shl (x y : RegIx)
  /-- 9XY0 `SNE VX, VY`: skip if registers differ. -/
  | sneReg (x y : RegIx)
  /-- ANNN `LD I, NNN`: load index. -/
  | ldI (nnn : Addr12)
  /-- BNNN `JP V0, NNN`: jump with offset. -/
  | jpV0 (nnn : Addr12)
  /-- CXNN `RND VX, NN`: random byte masked. -/
  | rnd (x : RegIx) (nn : Byte)
  /-- DXYN `DRW VX, VY, N`: draw a sprite. -/
  | drw (x y : RegIx) (n : Nibble)
  /-- EX9E `SKP VX`: skip if key held. -/
  | skp (x : RegIx)
  /-- EXA1 `SKNP VX`: skip if key not held. -/
  | sknp (x : RegIx)
  /-- FX07 `LD VX, DT`: read the delay timer. -/
  | ldVxDt (x : RegIx)
  /-- FX0A `LD VX, K`: wait for a press-then-release edge. -/
  | ldVxK (x : RegIx)
  /-- FX15 `LD DT, VX`: set the delay timer. -/
  | ldDtVx (x : RegIx)
  /-- FX18 `LD ST, VX`: set the sound timer. -/
  | ldStVx (x : RegIx)
  /-- FX1E `ADD I, VX`: add to index with overflow flag. -/
  | addI (x : RegIx)
  /-- FX29 `LD F, VX`: point I at a font glyph. -/
  | ldF (x : RegIx)
  /-- FX33 `LD B, VX`: binary-coded decimal store. -/
  | ldB (x : RegIx)
  /-- FX55 `LD [I], VX`: store registers. -/
  | storeRegs (x : RegIx)
  /-- FX65 `LD VX, [I]`: load registers. -/
  | loadRegs (x : RegIx)
  /-- A word that no row selects: a no-op (R77, R83, R104). -/
  | unmatched (w : Word)
  deriving DecidableEq, Repr

end Sys2Proof
end

