-- ==== Sys2Proof/WellFormed.lean ====
section
/-! DEFINITION. Which instructions the encoding can name: every row with every value of its fields, and an `unmatched` word only
where it is one of the unmatched words of spec/30_encoding.md R79. -/

namespace Sys2Proof

/-- R79: the words no row selects, under DECODE_STRICT = `strict` (R76). Written from R79's own list, not from the decoder. -/
def unmatchedWord (strict : Bool) (w : Word) : Bool :=
  let op := (w >>> 12).toNat
  let x := ((w >>> 8) &&& 0xF#16).toNat
  let n := (w &&& 0xF#16).toNat
  let nn := (w &&& 0xFF#16).toNat
  (op == 0x0 && (!([0xE0, 0xEE].contains nn) || (strict && x != 0))) ||
  (op == 0x8 && [0x8, 0x9, 0xA, 0xB, 0xC, 0xD, 0xF].contains n) ||
  (op == 0xE && !([0x9E, 0xA1].contains nn)) ||
  (op == 0xF && !([0x07, 0x0A, 0x15, 0x18, 0x1E, 0x29, 0x33, 0x55, 0x65].contains nn)) ||
  (strict && (op == 0x5 || op == 0x9) && n != 0)

/-- The instruction is one that some word decodes to under DECODE_STRICT = `strict`. -/
def Instr.wfWith (strict : Bool) : Instr → Bool
  | .unmatched w => unmatchedWord strict w
  | .cls | .ret => true
  | .jp _ | .call _ | .ldI _ | .jpV0 _ => true
  | .seImm _ _ | .sneImm _ _ | .ldImm _ _ | .addImm _ _ | .rnd _ _ => true
  | .seReg _ _ | .sneReg _ _ | .ldReg _ _ | .orReg _ _ | .andReg _ _ | .xorReg _ _ => true
  | .addReg _ _ | .subReg _ _ | .shr _ _ | .subn _ _ | .shl _ _ => true
  | .drw _ _ _ => true
  | .skp _ | .sknp _ | .ldVxDt _ | .ldVxK _ | .ldDtVx _ | .ldStVx _ => true
  | .addI _ | .ldF _ | .ldB _ | .storeRegs _ | .loadRegs _ => true

/-- The instruction is one the hardware's decoder can give. -/
def Instr.wf (i : Instr) : Bool := i.wfWith Config.decodeStrict

end Sys2Proof
end

