-- ==== Sys2Proof/Decode.lean ====
section
/-! DEFINITION. The decoder (spec/30_encoding.md R70 to R84, spec/40_cycle.md R103), total on every word and on every list of bytes,
and after it the encoder written from the same map (R78). -/

namespace Sys2Proof

/-! ### The fields of a word (R71) -/

/-- `op` = w[15:12], the opcode nibble. -/
def fieldOp (w : Word) : Nibble := w.extractLsb' 12 4

/-- `X` = w[11:8]. -/
def fieldX (w : Word) : RegIx := w.extractLsb' 8 4

/-- `Y` = w[7:4]. -/
def fieldY (w : Word) : RegIx := w.extractLsb' 4 4

/-- `N` = w[3:0]. -/
def fieldN (w : Word) : Nibble := w.extractLsb' 0 4

/-- `NN` = w[7:0]. -/
def fieldNN (w : Word) : Byte := w.extractLsb' 0 8

/-- `NNN` = w[11:0]. -/
def fieldNNN (w : Word) : Addr12 := w.extractLsb' 0 12

/-! ### The two-level match (R74, R75, R76) -/

/-- Opcode 0x0: NN selects; X is examined only under DECODE_STRICT (R75, R76). -/
def decode0 (strict : Bool) (w : Word) : Instr :=
  if strict && fieldX w != 0x0#4 then .unmatched w
  else if fieldNN w = 0xE0#8 then .cls
  else if fieldNN w = 0xEE#8 then .ret
  else .unmatched w

/-- Opcode 0x8: N selects (R75, R78). -/
def decode8 (w : Word) : Instr :=
  if fieldN w = 0x0#4 then .ldReg (fieldX w) (fieldY w)
  else if fieldN w = 0x1#4 then .orReg (fieldX w) (fieldY w)
  else if fieldN w = 0x2#4 then .andReg (fieldX w) (fieldY w)
  else if fieldN w = 0x3#4 then .xorReg (fieldX w) (fieldY w)
  else if fieldN w = 0x4#4 then .addReg (fieldX w) (fieldY w)
  else if fieldN w = 0x5#4 then .subReg (fieldX w) (fieldY w)
  else if fieldN w = 0x6#4 then .shr (fieldX w) (fieldY w)
  else if fieldN w = 0x7#4 then .subn (fieldX w) (fieldY w)
  else if fieldN w = 0xE#4 then .shl (fieldX w) (fieldY w)
  else .unmatched w

/-- Opcode 0xE: NN selects (R75, R78). -/
def decodeE (w : Word) : Instr :=
  if fieldNN w = 0x9E#8 then .skp (fieldX w)
  else if fieldNN w = 0xA1#8 then .sknp (fieldX w)
  else .unmatched w

/-- Opcode 0xF: NN selects (R75, R78). -/
def decodeF (w : Word) : Instr :=
  if fieldNN w = 0x07#8 then .ldVxDt (fieldX w)
  else if fieldNN w = 0x0A#8 then .ldVxK (fieldX w)
  else if fieldNN w = 0x15#8 then .ldDtVx (fieldX w)
  else if fieldNN w = 0x18#8 then .ldStVx (fieldX w)
  else if fieldNN w = 0x1E#8 then .addI (fieldX w)
  else if fieldNN w = 0x29#8 then .ldF (fieldX w)
  else if fieldNN w = 0x33#8 then .ldB (fieldX w)
  else if fieldNN w = 0x55#8 then .storeRegs (fieldX w)
  else if fieldNN w = 0x65#8 then .loadRegs (fieldX w)
  else .unmatched w

/-- The decode rule under DECODE_STRICT = `strict`: first the opcode nibble, then the secondary match (R74 to R76). -/
def decodeWith (strict : Bool) (w : Word) : Instr :=
  if fieldOp w = 0x0#4 then decode0 strict w
  else if fieldOp w = 0x1#4 then .jp (fieldNNN w)
  else if fieldOp w = 0x2#4 then .call (fieldNNN w)
  else if fieldOp w = 0x3#4 then .seImm (fieldX w) (fieldNN w)
  else if fieldOp w = 0x4#4 then .sneImm (fieldX w) (fieldNN w)
  else if fieldOp w = 0x5#4 then
    if strict && fieldN w != 0x0#4 then .unmatched w else .seReg (fieldX w) (fieldY w)
  else if fieldOp w = 0x6#4 then .ldImm (fieldX w) (fieldNN w)
  else if fieldOp w = 0x7#4 then .addImm (fieldX w) (fieldNN w)
  else if fieldOp w = 0x8#4 then decode8 w
  else if fieldOp w = 0x9#4 then
    if strict && fieldN w != 0x0#4 then .unmatched w else .sneReg (fieldX w) (fieldY w)
  else if fieldOp w = 0xA#4 then .ldI (fieldNNN w)
  else if fieldOp w = 0xB#4 then .jpV0 (fieldNNN w)
  else if fieldOp w = 0xC#4 then .rnd (fieldX w) (fieldNN w)
  else if fieldOp w = 0xD#4 then .drw (fieldX w) (fieldY w) (fieldN w)
  else if fieldOp w = 0xE#4 then decodeE w
  else decodeF w

/-- The hardware's decoder: DECODE_STRICT at the value of R6. -/
def decode (w : Word) : Instr := decodeWith Config.decodeStrict w

/-! ### Bytes (R53, R70) -/

/-- The word of two bytes, big-endian: the first byte is the high one (R53). -/
def wordOfBytes (hi lo : Byte) : Word := hi ++ lo

/-- The byte that lies at the lower address of a word in memory (R53). -/
def highByte (w : Word) : Byte := w.extractLsb' 8 8

/-- The byte that lies at the higher address of a word in memory (R53). -/
def lowByte (w : Word) : Byte := w.extractLsb' 0 8

/-- Why a list of bytes holds no instruction. -/
inductive DecodeError where
  /-- Fewer than the two bytes that every instruction has (R70). -/
  | truncated
  deriving DecidableEq, Repr

/-- The first instruction of a list of bytes, and the bytes after it. Every pair of bytes decodes (R83); a shorter list is
rejected by name. -/
def decodeBytes : List Byte → Except DecodeError (Instr × List Byte)
  | hi :: lo :: rest => .ok (decode (wordOfBytes hi lo), rest)
  | [_] => .error .truncated
  | [] => .error .truncated

/-- What the decoder reads from the table word `w` of `nbits` bits (bit 0 the least significant), the bits above `nbits` zero:
the word is laid out as memory stores it, high byte first (R53), and given to `decodeBytes`. -/
def decodeTableWord (nbits w : Nat) : Option Instr :=
  let word := BitVec.ofNat 16 (w % 2 ^ nbits)
  match decodeBytes [highByte word, lowByte word] with
  | .ok (i, _) => some i
  | .error .truncated => none

/-! ### The encoder (R73, R78) -/

/-- The layout `oooo aaaaaaaaaaaa` (format NNN). -/
def encNNN (op : Nibble) (nnn : Addr12) : Word := op ++ nnn

/-- The layout `oooo xxxx kkkkkkkk` (formats XNN and X). -/
def encXNN (op : Nibble) (x : RegIx) (nn : Byte) : Word := op ++ (x ++ nn)

/-- The layout `oooo xxxx yyyy ssss` (formats XY and XYN). -/
def encXYN (op : Nibble) (x y : RegIx) (n : Nibble) : Word := op ++ (x ++ (y ++ n))

/-- The canonical word of an instruction: the match value of its row with its fields, ignored bits 0 (R78, R81). -/
def encode : Instr → Word
  | .cls => 0x00E0#16
  | .ret => 0x00EE#16
  | .jp nnn => encNNN 0x1 nnn
  | .call nnn => encNNN 0x2 nnn
  | .seImm x nn => encXNN 0x3 x nn
  | .sneImm x nn => encXNN 0x4 x nn
  | .seReg x y => encXYN 0x5 x y 0x0
  | .ldImm x nn => encXNN 0x6 x nn
  | .addImm x nn => encXNN 0x7 x nn
  | .ldReg x y => encXYN 0x8 x y 0x0
  | .orReg x y => encXYN 0x8 x y 0x1
  | .andReg x y => encXYN 0x8 x y 0x2
  | .xorReg x y => encXYN 0x8 x y 0x3
  | .addReg x y => encXYN 0x8 x y 0x4
  | .subReg x y => encXYN 0x8 x y 0x5
  | .shr x y => encXYN 0x8 x y 0x6
  | .subn x y => encXYN 0x8 x y 0x7
  | .shl x y => encXYN 0x8 x y 0xE
  | .sneReg x y => encXYN 0x9 x y 0x0
  | .ldI nnn => encNNN 0xA nnn
  | .jpV0 nnn => encNNN 0xB nnn
  | .rnd x nn => encXNN 0xC x nn
  | .drw x y n => encXYN 0xD x y n
  | .skp x => encXNN 0xE x 0x9E
  | .sknp x => encXNN 0xE x 0xA1
  | .ldVxDt x => encXNN 0xF x 0x07
  | .ldVxK x => encXNN 0xF x 0x0A
  | .ldDtVx x => encXNN 0xF x 0x15
  | .ldStVx x => encXNN 0xF x 0x18
  | .addI x => encXNN 0xF x 0x1E
  | .ldF x => encXNN 0xF x 0x29
  | .ldB x => encXNN 0xF x 0x33
  | .storeRegs x => encXNN 0xF x 0x55
  | .loadRegs x => encXNN 0xF x 0x65
  | .unmatched w => w

/-- The bytes of an instruction as memory stores them (R53). -/
def encodeBytes (i : Instr) : List Byte := [highByte (encode i), lowByte (encode i)]

end Sys2Proof
end

