-- ==== Sys2Proof/Machine/Flags.lean ====
section
/-! DEFINITION. The flag computations: what VF receives (spec/10_state.md R21), each from the values read before any write (spec/00_scope.md
R10, spec/42_alu.md R152). -/

namespace Sys2Proof.Machine

/-- A flag as the byte VF receives: 1 or 0. -/
def flagByte (b : Bool) : Byte := if b then 0x01#8 else 0x00#8

/-- Carry of 8XY4: the sum of the two bytes exceeds 255 (R146). -/
def carryFlag (x y : Byte) : Byte := flagByte (decide (x.toNat + y.toNat > 255))

/-- No-borrow of a subtraction `minuend - subtrahend` (R147, R149). -/
def noBorrowFlag (minuend subtrahend : Byte) : Byte := flagByte (decide (minuend.toNat ≥ subtrahend.toNat))

/-- The bit that 8XY6 shifts out: bit 0 (R148). -/
def shiftedOutLow (x : Byte) : Byte := flagByte (x.getLsbD 0)

/-- The bit that 8XYE shifts out: bit 7 (R150). -/
def shiftedOutHigh (x : Byte) : Byte := flagByte (x.getLsbD 7)

/-- Overflow of FX1E: the sum of I and VX exceeds 0xFFF (spec/43_index_memory.md R171). -/
def indexOverflow (i : Word) (x : Byte) : Bool := decide (i.toNat + x.toNat > 0xFFF)

end Sys2Proof.Machine
end

