-- ==== Sys2Proof/Machine/State.lean ====
section
/-! DEFINITION. The state record of the block (spec/10_state.md R44), the fault causes (spec/60_exceptions.md R251), the inputs of
an iteration (spec/40_cycle.md R100), and the state after reset (spec/10_state.md R45). -/

namespace Sys2Proof.Machine

/-- The fault causes of spec/60_exceptions.md R251. The spec describes what raising one does (R253, R256: RUN becomes
Faulted(record), nothing else changes), so the machine TAKES it: a next state whose RUN names the cause (log 2). No step ends in
`Host.Outcome.fault`. All six are SAFE: they stop the block where the spec says that it stops. -/
inductive Fault where
  /-- Code 0x1. Raised by fetch when PC + 1 > 0xFFF; info = PC. Safe. -/
  | fetchOutOfRange
  /-- Code 0x2. Raised by 00EE when SP = 0; no info. Safe. -/
  | stackUnderflow
  /-- Code 0x3. Raised by 2NNN when SP = STACK_DEPTH; no info. Safe. -/
  | stackOverflow
  /-- Code 0x4. Raised by EX9E and EXA1 when VX > 0x0F; info = VX. Safe. -/
  | keyOutOfRange
  /-- Code 0x5. Raised by DXYN, FX33, FX55, FX65 when an accessed address is above 0xFFF; info = the lowest such address. Safe. -/
  | dataOutOfRange
  /-- Code 0x6. Raised by `load` (no step) when the program is longer than 0xE00 bytes; info = its length. Safe. -/
  | loadOverflow
  deriving DecidableEq, Repr

/-- Why an instruction has no meaning. -/
inductive Refusal where
  /-- Answered by an arm of `exec` whose instruction has no meaning yet; safe. No arm answers it now. -/
  | notModelled (mnemonic : String)
  deriving DecidableEq, Repr

/-- The fault record of R251: `{cause, pc, word, info}`; `none` where the spec records nothing. -/
structure FaultRecord where
  /-- The cause. -/
  cause : Fault
  /-- The address of the faulting instruction. -/
  pc : Option Word
  /-- Its word. -/
  word : Option Word
  /-- The info column of R251. -/
  info : Option Nat
  deriving DecidableEq, Repr

/-- The status RUN (spec/10_state.md R36). -/
inductive RunStatus where
  /-- The block runs. -/
  | running
  /-- The block has faulted; permanent until the next `load` (R257). -/
  | faulted (record : FaultRecord)
  deriving DecidableEq, Repr

/-- What the host hands to one `iterate` (spec/40_cycle.md R100). -/
structure Input where
  /-- `e`: the elapsed time, in timer units scaled by 2^F (spec/45_timers.md R211). -/
  elapsed : Nat
  /-- `KEY`: bit k set when logical key k is held (spec/46_input.md R231). -/
  keys : BitVec 16
  /-- `RND`: the random byte of CXNN (spec/10_state.md R42). -/
  rnd : Byte
  deriving DecidableEq, Repr

/-- The framebuffer FB[x][y]: 64 columns of 32 pixels, true = on (spec/10_state.md R31, spec/44_display.md R190). -/
abbrev Framebuffer := Vector (Vector Bool 32) 64

/-- Every pixel off. -/
def Framebuffer.clear : Framebuffer := Vector.replicate 64 (Vector.replicate 32 false)

/-- Memory, as the bytes that differ from the reset contents: addresses strictly rising (log 10). -/
abbrev Memory := List Host.Cell

/-- The state of the block (R44) and, last, the model's own three fields: the inputs to come, the iteration count and the present
output (logs 3, 4). -/
structure State where
  /-- V0..VF (R20, R21). -/
  v : Vector Byte 16
  /-- The index register I (R23). -/
  i : Word
  /-- The program counter PC (R24). -/
  pc : Word
  /-- The call-stack entries STACK[0..15] (R27, R44). -/
  stack : Vector Word Config.stackDepth
  /-- The occupancy count SP, 0..16 (R27). -/
  sp : Fin (Config.stackDepth + 1)
  /-- The delay timer DT_raw, in units of 2^-F (R29). -/
  dt : Nat
  /-- The sound timer ST_raw, in units of 2^-F (R29). -/
  st : Nat
  /-- The framebuffer FB (R31). -/
  fb : Framebuffer
  /-- The FX0A shadow (R33). -/
  shadow : BitVec 16
  /-- The status RUN (R36). -/
  run : RunStatus
  /-- The memory MEM, 4096 bytes (spec/20_memory.md R50). -/
  mem : Memory
  /-- The model's own: the inputs of the next iterations, oldest first; where it is empty the inputs are free (log 3). -/
  inputs : List Input
  /-- The model's own: how many iterations have been made (log 3). -/
  iter : Nat
  /-- The model's own: the present output of the last step (R43, spec/44_display.md R197; log 4). -/
  present : Bool
  deriving DecidableEq, Repr

/-- The machine right after reset: after a `load` of the empty program (R45, spec/70_reset_and_hazards.md R281). Memory lists
nothing: every byte is at its reset contents. The entries of the empty stack and the model's own fields: logs 3, 4, 6. -/
def State.reset : State where
  v := Vector.replicate 16 0x00#8
  i := 0x0000#16
  pc := 0x0200#16
  stack := Vector.replicate Config.stackDepth 0x0000#16
  sp := ⟨0, by decide⟩
  dt := 0
  st := 0
  fb := Framebuffer.clear
  shadow := 0x0000#16
  run := .running
  mem := []
  inputs := []
  iter := 0
  present := false

end Sys2Proof.Machine
end

