-- ==== Sys2Proof/Machine/Memory.lean ====
section
/-! DEFINITION. Memory (spec/20_memory.md): one byte read and written, spans of bytes in ascending order (R61), the canonical form of
the list (log 10), and the reset contents that an unlisted address reads as (R51, spec/10_state.md R45). -/

namespace Sys2Proof.Machine

/-- What an address that memory does not list reads as: its reset contents, the font at 0x050..0x09F and 0x00 elsewhere (R45, R51).
-/
def resetByte (addr : Nat) : Byte :=
  if h : Config.fontBase ≤ addr ∧ addr - Config.fontBase < 80 then Config.fontTable[addr - Config.fontBase]'h.2 else 0x00#8

/-- The byte at `addr` (R50, R58). -/
def Memory.get : Memory → Nat → Byte
  | [], addr => resetByte addr
  | (a, b) :: rest, addr => if a = addr then b else Memory.get rest addr

/-- The list with the entry `(addr, b)` in its place, rising by address. -/
def Memory.insert (addr : Nat) (b : Byte) : Memory → Memory
  | [] => [(addr, b)]
  | (a, c) :: rest =>
    if addr < a then (addr, b) :: (a, c) :: rest
    else if addr = a then (addr, b) :: rest
    else (a, c) :: Memory.insert addr b rest

/-- The list without any entry for `addr`. -/
def Memory.erase (addr : Nat) (m : Memory) : Memory := m.filter (fun c => c.1 != addr)

/-- The byte write MEM[addr] <- b (R55, R58). An address above 0xFFF has no byte: nothing is written there (every instruction checks
its addresses first, R55; log 10). -/
def Memory.set (m : Memory) (addr : Nat) (b : Byte) : Memory :=
  if addr < Config.memSize then
    if b = resetByte addr then Memory.erase addr m else Memory.insert addr b m
  else m

/-- The bytes `bs` written from `addr` upwards, in ascending order (R61). -/
def Memory.setBytes (m : Memory) : Nat → List Byte → Memory
  | _, [] => m
  | addr, b :: bs => Memory.setBytes (m.set addr b) (addr + 1) bs

/-- The `n` bytes from `addr` upwards, in ascending order (R61). -/
def Memory.getBytes (m : Memory) (addr : Nat) : Nat → List Byte
  | 0 => []
  | n + 1 => m.get addr :: Memory.getBytes m (addr + 1) n

/-- One entry is in canonical form: its address exists and its byte differs from the reset contents. -/
abbrev Memory.cellOk (c : Host.Cell) : Prop := c.1 < Config.memSize ∧ c.2 ≠ resetByte c.1

/-- The canonical form: addresses strictly rising, every entry in canonical form (log 10). -/
abbrev Memory.wf (m : Memory) : Prop := m.Pairwise (fun a b => a.1 < b.1) ∧ ∀ c ∈ m, Memory.cellOk c

end Sys2Proof.Machine
end

