-- ==== Sys2Proof/Machine/Operands.lean ====
section
/-! DEFINITION. The operand forms: the addressing modes of spec/43_index_memory.md R176, the arithmetic on operands (spec/42_alu.md R152),
the decimal split of FX33 (R173), the start position of a sprite (spec/44_display.md R193), the two views of a timer
(spec/45_timers.md R213, R214) and the bits of the key words (spec/46_input.md R231, R234). -/

namespace Sys2Proof.Machine

/-- Mode (1): the absolute address NNN, zero-extended (R72, R176). -/
def absTarget (nnn : Addr12) : Word := nnn.setWidth 16

/-- Mode (2): NNN plus V0, not masked to 12 bits (R127, R176). -/
def offsetTarget (nnn : Addr12) (v0 : Byte) : Word := nnn.setWidth 16 + v0.setWidth 16

/-- Mode (3): the accesses I, I + 1, ..., I + last all lie at or below 0xFFF; the sum is on naturals, never truncated
(R55, R176). -/
def spanFits (i : Word) (last : Nat) : Bool := decide (i.toNat + last ≤ 0xFFF)

/-- The lowest address above 0xFFF among I, I + 1, ... when the span does not fit: max(I, 0x1000) (R173, R251). -/
def firstBadAddress (i : Word) : Nat := max i.toNat 0x1000

/-- Mode (4): the address of the glyph of the low nibble of VX (R172, R176). -/
def glyphAddress (x : Byte) : Word := BitVec.ofNat 16 (Config.fontBase + (x.toNat % 16) * 5)

/-- The sum FX1E stores into I: modulo 0x1000 under I_MASK_12, else modulo 0x10000 (R171). -/
def indexSum (mask12 : Bool) (i : Word) (x : Byte) : Word :=
  if mask12 then BitVec.ofNat 16 ((i.toNat + x.toNat) % 0x1000) else BitVec.ofNat 16 (i.toNat + x.toNat)

/-- The hundreds, tens and units digits of a byte, most significant first (R173). -/
def bcdDigits (x : Byte) : List Byte :=
  [BitVec.ofNat 8 (x.toNat / 100), BitVec.ofNat 8 (x.toNat / 10 % 10), BitVec.ofNat 8 (x.toNat % 10)]

/-- The start column of a sprite: VX mod 64 (R193). -/
def startColumn (x : Byte) : Nat := x.toNat % 64

/-- The start row of a sprite: VY mod 32 (R193). -/
def startRow (y : Byte) : Nat := y.toNat % 32

/-- How many rows of a sprite of height `n` are drawn from row `y0`: those at or above row 31 (R192, R194). -/
def drawnRows (n : Nibble) (y0 : Nat) : Nat := min n.toNat (32 - y0)

/-- A byte as a timer value with fraction 0, under TIMER_FRAC_BITS = `f` (R214, R215). -/
def timerOfByte (f : Nat) (b : Byte) : Nat := b.toNat <<< f

/-- The integer part of a timer value, under TIMER_FRAC_BITS = `f` (R213). -/
def byteOfTimer (f raw : Nat) : Byte := BitVec.ofNat 8 (raw >>> f)

/-- One timer after `e` elapsed units: it stays at 0, else it loses `e` and never passes below 0 (R211). -/
def countDown (raw e : Nat) : Nat := if raw = 0 then 0 else if raw > e then raw - e else 0

/-- Bit `k` of a key word set. -/
def markKey (w : BitVec 16) (k : Nat) : BitVec 16 := w ||| (1#16 <<< k)

/-- Bit `k` of a key word cleared. -/
def clearKey (w : BitVec 16) (k : Nat) : BitVec 16 := w &&& ~~~(1#16 <<< k)

end Sys2Proof.Machine
end

