-- ==== Sys2Proof/Machine/Ops.lean ====
section
/-! DEFINITION. The named operations over the state: registers (spec/10_state.md R20 to R24), the call stack (R30), timers
(spec/45_timers.md R211), pixels (spec/44_display.md R190), the word of the executing instruction, raising a fault
(spec/60_exceptions.md R251 to R256), skips, the checked index access (spec/20_memory.md R55), and the host operation `load`
(spec/70_reset_and_hazards.md R281). -/

namespace Sys2Proof.Machine

/-! ### One field at a time -/

/-- V[x] (R9, R20). -/
def State.getV (s : State) (x : RegIx) : Byte := s.v[x.toNat]'x.isLt

/-- V[x] <- b (R9, R20). -/
def State.setV (s : State) (x : RegIx) (b : Byte) : State := { s with v := s.v.set x.toNat b x.isLt }

/-- I <- w (R23). -/
def State.setI (s : State) (w : Word) : State := { s with i := w }

/-- PC <- w (R24). -/
def State.setPc (s : State) (w : Word) : State := { s with pc := w }

/-- DT_raw <- n (R29). -/
def State.setDt (s : State) (n : Nat) : State := { s with dt := n }

/-- ST_raw <- n (R29). -/
def State.setSt (s : State) (n : Nat) : State := { s with st := n }

/-- The framebuffer replaced (R31). -/
def State.setFb (s : State) (f : Framebuffer) : State := { s with fb := f }

/-- The FX0A shadow replaced (R33). -/
def State.setShadow (s : State) (w : BitVec 16) : State := { s with shadow := w }

/-- The memory replaced. -/
def State.setMem (s : State) (m : Memory) : State := { s with mem := m }

/-- The present output of the step (spec/44_display.md R197). -/
def State.setPresent (s : State) (b : Bool) : State := { s with present := b }

/-- A result and then the flag, written last: with x = VF the flag is what VF holds (R10, R21). -/
def State.setVThenFlag (s : State) (x : RegIx) (b flag : Byte) : State := (s.setV x b).setV vf flag

/-! ### The call stack (R30) -/

/-- push(w): `none` when the stack is full. -/
def State.push (s : State) (w : Word) : Option State :=
  if h : s.sp.val < Config.stackDepth then
    some { s with stack := s.stack.set s.sp.val w h, sp := ⟨s.sp.val + 1, by omega⟩ }
  else none

/-- pop(): the popped value and the state after; `none` when the stack is empty. The entry itself stays in STACK (log 8). -/
def State.pop (s : State) : Option (Word × State) :=
  if h : s.sp.val = 0 then none
  else some (s.stack[s.sp.val - 1]'(by have := s.sp.isLt; omega), { s with sp := ⟨s.sp.val - 1, by have := s.sp.isLt; omega⟩ })

/-! ### Words of memory -/

/-- The word of the two bytes at `addr` and `addr + 1`, big-endian; `none` when the second lies above 0xFFF (R53, R56). -/
def Memory.word (m : Memory) (addr : Nat) : Option Word :=
  if addr + 1 < Config.memSize then some (wordOfBytes (m.get addr) (m.get (addr + 1))) else none

/-- The address of the executing instruction: during the execute phase PC is that address plus 2 (R24). -/
def State.curAddr (s : State) : Word := s.pc - 2#16

/-- The word of the executing instruction. No instruction writes memory before it raises a fault, so memory still holds the word
that was fetched (R253; log 9). -/
def State.curWord (s : State) : Option Word := s.mem.word s.curAddr.toNat

/-! ### Raising a fault (R251 to R256) -/

/-- The code of a cause (R251). -/
def faultCode : Fault → Nat
  | .fetchOutOfRange => 0x1
  | .stackUnderflow => 0x2
  | .stackOverflow => 0x3
  | .keyOutOfRange => 0x4
  | .dataOutOfRange => 0x5
  | .loadOverflow => 0x6

/-- Taking a fault: PC is the address `a` of the faulting instruction, present is false and RUN holds the record; nothing else
changes (R253, R256). There is no handler and no return but `load` (R250, R257). -/
def State.takeFault (s : State) (cause : Fault) (a : Word) (word : Option Word) (info : Option Nat) : State :=
  { s with pc := a, present := false, run := .faulted ⟨cause, some a, word, info⟩ }

/-- `raise cause(info)` by the executing instruction, before its first write (R252, R253). -/
def State.raise (s : State) (cause : Fault) (info : Option Nat) : State :=
  s.takeFault cause s.curAddr s.curWord info

/-- `raise FetchOutOfRange`: PC has not moved, there is no word, info = PC (R102, R251). -/
def State.raiseFetch (s : State) : State :=
  s.takeFault .fetchOutOfRange s.pc none (some s.pc.toNat)

/-! ### Shared shapes of instructions -/

/-- A skip: PC <- PC + 2 when the condition holds (R123). -/
def State.skipIf (s : State) (c : Bool) : State := if c then s.setPc (s.pc + 2#16) else s

/-- An access to I, I + 1, ..., I + last: `ok` is the state after it, and DataOutOfRange is raised instead when an address lies
above 0xFFF (R55, R251). -/
def State.accessSpan (s : State) (last : Nat) (ok : State) : State :=
  if spanFits s.i last then ok else s.raise .dataOutOfRange (some (firstBadAddress s.i))

/-- V[k], V[k+1], ... <- the bytes in order (spec/43_index_memory.md R175). -/
def State.loadFrom (s : State) : Nat → List Byte → State
  | _, [] => s
  | k, b :: bs => (s.setV (BitVec.ofNat 4 k) b).loadFrom (k + 1) bs

/-- V0..VX in order (R174). -/
def State.firstRegs (s : State) (x : RegIx) : List Byte := s.v.toList.take (x.toNat + 1)

/-! ### Pixels (R190) -/

/-- FB[x][y], off outside the grid. -/
def Framebuffer.pixel (f : Framebuffer) (x y : Nat) : Bool :=
  if h : x < 64 ∧ y < 32 then (f[x]'h.1)[y]'h.2 else false

/-- FB[x][y] <- 1 - FB[x][y]; nothing outside the grid. -/
def Framebuffer.flip (f : Framebuffer) (x y : Nat) : Framebuffer :=
  if h : x < 64 ∧ y < 32 then
    f.set x ((f[x]'h.1).set y (!((f[x]'h.1)[y]'h.2)) h.2) h.1
  else f

/-! ### Reset and program load (R280 to R282) -/

/-- Memory after `initialize()` and `loadFont(font)`: zero fill and the font at 0x050 (R280). -/
def fontMemory (font : FontTable) : Memory := Memory.setBytes [] Config.fontBase font.toList

/-- The host operation `load(program)`, with FONT_TABLE an argument (R41). On LoadOverflow memory holds the zero fill and the font,
RUN the record, and no other register is written (R281, R282; log 11). -/
def State.load (s : State) (font : FontTable) (program : List Byte) : State :=
  if program.length > Config.memSize - Config.programBase then
    { s with mem := fontMemory font, present := false, run := .faulted ⟨.loadOverflow, none, none, some program.length⟩ }
  else
    { s with
      mem := (fontMemory font).setBytes Config.programBase program
      v := Vector.replicate 16 0x00#8
      i := 0x0000#16
      pc := BitVec.ofNat 16 Config.programBase
      sp := ⟨0, by decide⟩
      dt := 0
      st := 0
      fb := Framebuffer.clear
      shadow := 0x0000#16
      present := false
      run := .running }

end Sys2Proof.Machine
end

