-- ==== Sys2Proof/Machine/Cycle.lean ====
section
/-! DEFINITION. The execution cycle (spec/40_cycle.md R100 to R107): the inputs of an iteration, the timer advance, fetch, the end of an
iteration, and the unmatched word (R104). -/

namespace Sys2Proof.Machine

/-- The inputs of iteration number `n` where none is listed: free values (R100; log 3). -/
def freeInput (n : Nat) : Input := ⟨Config.freeElapsed n, Config.freeKeys n, Config.freeRnd n⟩

/-- The inputs of the current iteration: the oldest listed, else free (R100; log 3). Every read of KEY or RND within one
instruction sees this one snapshot (spec/46_input.md R231). -/
def State.input (s : State) : Input :=
  match s.inputs with
  | [] => freeInput s.iter
  | inp :: _ => inp

/-- AdvanceTimers(s, e): both timers lose the same `e` (spec/45_timers.md R211). -/
def State.advanceTimers (s : State) (e : Nat) : State := { s with dt := countDown s.dt e, st := countDown s.st e }

/-- What precedes the step of an iteration: the timer advance, and the present output not yet raised (R101, R197). -/
def State.beginIteration (s : State) : State := (s.advanceTimers s.input.elapsed).setPresent false

/-- Fetch: the word at PC and PC + 1 and the state with PC advanced by 2; `none` when PC + 1 > 0xFFF (R102). -/
def State.fetch (s : State) : Option (Word × State) :=
  match s.mem.word s.pc.toNat with
  | none => none
  | some w => some (w, s.setPc (s.pc + 2#16))

/-- The end of an iteration: its inputs are used up (the model's own fields only; log 3). -/
def State.endIteration (s : State) : State := { s with inputs := s.inputs.tail, iter := s.iter + 1 }

/-- An iteration of a block that is not Running: no step and no present output (R101, R257; log 4). -/
def State.idleIteration (s : State) : State := (s.setPresent false).endIteration

/-- An iteration whose fetch faults: a next state with RUN = Faulted (R102, R253). -/
def State.fetchFaultIteration (s : State) : State := s.beginIteration.raiseFetch.endIteration

/-- The end of the iteration around the outcome of its instruction. -/
def closeIteration : Host.Outcome State Fault Refusal → Host.Outcome State Fault Refusal
  | .next t => .next t.endIteration
  | .fault r => .fault r
  | .refused r => .refused r

/-- An unmatched word: a no-op; fetch has already advanced PC (R77, R104). -/
def execUnmatched (_w : Word) (s : State) : Host.Outcome State Fault Refusal := .next s

/-- The memory with the table word `w` of `nbits` bits (the bits above `nbits` zero) at `addr`, as memory stores a word: high byte
first (R53). -/
def placeWord (m : Memory) (addr : Nat) (nbits w : Nat) : Memory :=
  let word := BitVec.ofNat 16 (w % 2 ^ nbits)
  m.setBytes addr [highByte word, lowByte word]

end Sys2Proof.Machine
end

