-- ==== Sys2Proof/Machine/Alu.lean ====
section
/-! DEFINITION. Register loads and arithmetic (spec/42_alu.md R140 to R153). Operands are read before any write and VF is written last
(spec/00_scope.md R10). -/

namespace Sys2Proof.Machine

/-- 6XNN: VX <- NN (R140). -/
def execLdImm (x : RegIx) (nn : Byte) (s : State) : Host.Outcome State Fault Refusal := .next (s.setV x nn)

/-- 7XNN: VX <- (VX + NN) mod 256, no flag (R141). -/
def execAddImm (x : RegIx) (nn : Byte) (s : State) : Host.Outcome State Fault Refusal :=
  .next (s.setV x (s.getV x + nn))

/-- 8XY0: VX <- VY (R142). -/
def execLdReg (x y : RegIx) (s : State) : Host.Outcome State Fault Refusal := .next (s.setV x (s.getV y))

/-- 8XY1: VX <- VX OR VY, no flag (R143). -/
def execOrReg (x y : RegIx) (s : State) : Host.Outcome State Fault Refusal :=
  .next (s.setV x (s.getV x ||| s.getV y))

/-- 8XY2: VX <- VX AND VY, no flag (R144). -/
def execAndReg (x y : RegIx) (s : State) : Host.Outcome State Fault Refusal :=
  .next (s.setV x (s.getV x &&& s.getV y))

/-- 8XY3: VX <- VX XOR VY, no flag (R145). -/
def execXorReg (x y : RegIx) (s : State) : Host.Outcome State Fault Refusal :=
  .next (s.setV x (s.getV x ^^^ s.getV y))

/-- 8XY4: VX <- sum mod 256, VF <- carry (R146). -/
def execAddReg (x y : RegIx) (s : State) : Host.Outcome State Fault Refusal :=
  .next (s.setVThenFlag x (s.getV x + s.getV y) (carryFlag (s.getV x) (s.getV y)))

/-- 8XY5: VX <- VX - VY mod 256, VF <- no borrow (R147). -/
def execSubReg (x y : RegIx) (s : State) : Host.Outcome State Fault Refusal :=
  .next (s.setVThenFlag x (s.getV x - s.getV y) (noBorrowFlag (s.getV x) (s.getV y)))

/-- 8XY6: VX <- VX >> 1, VF <- old bit 0; Y is ignored (R148). -/
def execShr (x _y : RegIx) (s : State) : Host.Outcome State Fault Refusal :=
  .next (s.setVThenFlag x (s.getV x >>> 1) (shiftedOutLow (s.getV x)))

/-- 8XY7: VX <- VY - VX mod 256, VF <- no borrow (R149). -/
def execSubn (x y : RegIx) (s : State) : Host.Outcome State Fault Refusal :=
  .next (s.setVThenFlag x (s.getV y - s.getV x) (noBorrowFlag (s.getV y) (s.getV x)))

/-- 8XYE: VX <- VX << 1 mod 256, VF <- old bit 7; Y is ignored (R150). -/
def execShl (x _y : RegIx) (s : State) : Host.Outcome State Fault Refusal :=
  .next (s.setVThenFlag x (s.getV x <<< 1) (shiftedOutHigh (s.getV x)))

/-- CXNN: VX <- RND AND NN, RND the random byte of this iteration (R151). -/
def execRnd (x : RegIx) (nn : Byte) (s : State) : Host.Outcome State Fault Refusal :=
  .next (s.setV x (s.input.rnd &&& nn))

end Sys2Proof.Machine
end

