-- ==== Sys2Proof/Machine/Display.lean ====
section
/-! DEFINITION. The framebuffer and the XOR-sprite compositor (spec/44_display.md R190 to R198). -/

namespace Sys2Proof.Machine

/-- A framebuffer being drawn on and the collision so far (`coll` of R192). -/
structure Canvas where
  /-- The pixels. -/
  fb : Framebuffer
  /-- A pixel has gone from on to off (R195). -/
  coll : Bool
  deriving DecidableEq, Repr

/-- A 1 bit of a sprite over the pixel (x, y): the collision is noted when the pixel is on, and the pixel flips (R195). -/
def Canvas.hit (c : Canvas) (x y : Nat) : Canvas := ⟨c.fb.flip x y, c.coll || c.fb.pixel x y⟩

/-- The last `n` bits of a sprite row byte `b` that starts at column `x0` of row `y`: bit n - 1 lies at column x0 + 8 - n, and the row
stops at the first column past 63 (R192, R194). -/
def Canvas.drawBits (b : Byte) (x0 y : Nat) : Nat → Canvas → Canvas
  | 0, c => c
  | n + 1, c =>
    if x0 + (7 - n) > 63 then c
    else Canvas.drawBits b x0 y n (if b.getLsbD n then c.hit (x0 + (7 - n)) y else c)

/-- The sprite rows `bs`, top first, from row `y` downwards (R192). -/
def Canvas.drawRows (x0 : Nat) : Nat → List Byte → Canvas → Canvas
  | _, [], c => c
  | y, b :: bs, c => Canvas.drawRows x0 (y + 1) bs (c.drawBits b x0 y 8)

/-- The sprite of the row bytes `bs` drawn at column `x0` and row `y0` of a framebuffer, with its collision (R192). -/
def drawSprite (f : Framebuffer) (x0 y0 : Nat) (bs : List Byte) : Canvas := Canvas.drawRows x0 y0 bs ⟨f, false⟩

/-- The bytes of the rows of a sprite that are drawn, read from memory at I (R196). -/
def State.spriteRows (s : State) (rows : Nat) : List Byte := s.mem.getBytes s.i.toNat rows

/-- 00E0: every pixel off, and present (R191). -/
def execCls (s : State) : Host.Outcome State Fault Refusal := .next ((s.setFb Framebuffer.clear).setPresent true)

/-- DXYN after its checks: the drawn rows composed onto the framebuffer, VF <- collision written last, and present (R192). -/
def State.composeSprite (s : State) (x0 y0 rows : Nat) : State :=
  let c := drawSprite s.fb x0 y0 (s.spriteRows rows)
  ((s.setFb c.fb).setV vf (flagByte c.coll)).setPresent true

/-- DXYN: the coordinates are read before VF is written; DataOutOfRange when a drawn row lies above 0xFFF (R192). -/
def execDrw (x y : RegIx) (n : Nibble) (s : State) : Host.Outcome State Fault Refusal :=
  let x0 := startColumn (s.getV x)
  let y0 := startRow (s.getV y)
  let rows := drawnRows n y0
  .next (if rows = 0 then s.composeSprite x0 y0 0
    else s.accessSpan (rows - 1) (s.composeSprite x0 y0 rows))

end Sys2Proof.Machine
end

