-- ==== Sys2Proof/Machine/Flow.lean ====
section
/-! DEFINITION. Control transfer and skips (spec/41_flow.md R120 to R128). Every meaning starts from the state after fetch: PC is the
address of the instruction plus 2 (R24). -/

namespace Sys2Proof.Machine

/-- 00EE: PC <- pop(); StackUnderflow on an empty stack (R120). -/
def execRet (s : State) : Host.Outcome State Fault Refusal :=
  .next (match s.pop with
    | some (w, t) => t.setPc w
    | none => s.raise .stackUnderflow none)

/-- 1NNN: PC <- NNN (R121). -/
def execJp (nnn : Addr12) (s : State) : Host.Outcome State Fault Refusal := .next (s.setPc (absTarget nnn))

/-- 2NNN: push(PC), PC <- NNN; StackOverflow on a full stack (R122). -/
def execCall (nnn : Addr12) (s : State) : Host.Outcome State Fault Refusal :=
  .next (match s.push s.pc with
    | some t => t.setPc (absTarget nnn)
    | none => s.raise .stackOverflow none)

/-- 3XNN: skip if VX = NN (R123). -/
def execSeImm (x : RegIx) (nn : Byte) (s : State) : Host.Outcome State Fault Refusal :=
  .next (s.skipIf (s.getV x == nn))

/-- 4XNN: skip if VX ≠ NN (R124). -/
def execSneImm (x : RegIx) (nn : Byte) (s : State) : Host.Outcome State Fault Refusal :=
  .next (s.skipIf (s.getV x != nn))

/-- 5XY0: skip if VX = VY (R125). -/
def execSeReg (x y : RegIx) (s : State) : Host.Outcome State Fault Refusal :=
  .next (s.skipIf (s.getV x == s.getV y))

/-- 9XY0: skip if VX ≠ VY (R126). -/
def execSneReg (x y : RegIx) (s : State) : Host.Outcome State Fault Refusal :=
  .next (s.skipIf (s.getV x != s.getV y))

/-- BNNN: PC <- NNN + V0, not masked (R127). -/
def execJpV0 (nnn : Addr12) (s : State) : Host.Outcome State Fault Refusal :=
  .next (s.setPc (offsetTarget nnn (s.getV 0x0#4)))

end Sys2Proof.Machine
end

