-- ==== Sys2Proof/Machine/Index.lean ====
section
/-! DEFINITION. The index register and memory transfers (spec/43_index_memory.md R170 to R176). -/

namespace Sys2Proof.Machine

/-- ANNN: I <- NNN (R170). -/
def execLdI (nnn : Addr12) (s : State) : Host.Outcome State Fault Refusal := .next (s.setI (absTarget nnn))

/-- FX1E under the parameters I_MASK_12 = `mask12` and FX1E_CLEAR_VF = `clearVf`: I <- I + VX, then VF <- 1 on overflow past 0xFFF,
else VF <- 0 when `clearVf` (R171). -/
def State.addIndex (s : State) (mask12 clearVf : Bool) (x : RegIx) : State :=
  let t := s.setI (indexSum mask12 s.i (s.getV x))
  if indexOverflow s.i (s.getV x) then t.setV vf (flagByte true)
  else if clearVf then t.setV vf (flagByte false)
  else t

/-- FX1E with the parameters of this hardware (R6, R171). -/
def execAddI (x : RegIx) (s : State) : Host.Outcome State Fault Refusal :=
  .next (s.addIndex Config.iMask12 Config.fx1eClearVf x)

/-- FX29: I <- the address of the glyph of VX's low nibble (R172). -/
def execLdF (x : RegIx) (s : State) : Host.Outcome State Fault Refusal := .next (s.setI (glyphAddress (s.getV x)))

/-- FX33: the decimal digits of VX to I, I + 1, I + 2 (R173). -/
def execLdB (x : RegIx) (s : State) : Host.Outcome State Fault Refusal :=
  .next (s.accessSpan 2 (s.setMem (s.mem.setBytes s.i.toNat (bcdDigits (s.getV x)))))

/-- FX55: V0..VX to I..I + X; I unchanged (R174). -/
def execStoreRegs (x : RegIx) (s : State) : Host.Outcome State Fault Refusal :=
  .next (s.accessSpan x.toNat (s.setMem (s.mem.setBytes s.i.toNat (s.firstRegs x))))

/-- FX65: V0..VX from I..I + X; I unchanged (R175). -/
def execLoadRegs (x : RegIx) (s : State) : Host.Outcome State Fault Refusal :=
  .next (s.accessSpan x.toNat (s.loadFrom 0 (s.mem.getBytes s.i.toNat (x.toNat + 1))))

end Sys2Proof.Machine
end

