-- ==== Sys2Proof/Machine/Keys.lean ====
section
/-! DEFINITION. The key instructions and the press-then-release edge detector (spec/46_input.md R230 to R237). -/

namespace Sys2Proof.Machine

/-- The key lookup of EX9E and EXA1: KeyOutOfRange when VX > 0x0F, else a skip when key VX is held exactly as `held` says (R232,
R233, R236). -/
def State.skipOnKey (s : State) (x : RegIx) (held : Bool) : State :=
  let code := (s.getV x).toNat
  if code > 0x0F then s.raise .keyOutOfRange (some code)
  else s.skipIf (s.input.keys.getLsbD code == held)

/-- EX9E: skip if key VX is held (R232). -/
def execSkp (x : RegIx) (s : State) : Host.Outcome State Fault Refusal := .next (s.skipOnKey x true)

/-- EXA1: skip if key VX is not held (R233). -/
def execSknp (x : RegIx) (s : State) : Host.Outcome State Fault Refusal := .next (s.skipOnKey x false)

/-- The scan of FX0A over its last `n` keys, 16 - n upwards: a held key is marked, the first marked key that is not held completes
and ends the scan. Answers the shadow after it and the completed key (R234). -/
def scanKeys (keys : BitVec 16) : Nat → BitVec 16 → BitVec 16 × Option Nat
  | 0, shadow => (shadow, none)
  | n + 1, shadow =>
    let k := 15 - n
    if keys.getLsbD k then scanKeys keys n (markKey shadow k)
    else if shadow.getLsbD k then (clearKey shadow k, some k)
    else scanKeys keys n shadow

/-- FX0A: on a completed key VX <- its code and PC stays; else the replay PC <- PC - 2 (R234, R106). -/
def execLdVxK (x : RegIx) (s : State) : Host.Outcome State Fault Refusal :=
  .next (match scanKeys s.input.keys 16 s.shadow with
    | (shadow, some k) => (s.setV x (BitVec.ofNat 8 k)).setShadow shadow
    | (shadow, none) => (s.setShadow shadow).setPc (s.pc - 2#16))

end Sys2Proof.Machine
end

