-- ==== Sys2Proof/Machine/Timers.lean ====
section
/-! DEFINITION. The timer instructions (spec/45_timers.md R213 to R215), under any TIMER_FRAC_BITS (R212) and at the value of this
hardware; the timer advance itself, the same for every TIMER_FRAC_BITS, is in Cycle.lean. -/

namespace Sys2Proof.Machine

/-- FX07 under TIMER_FRAC_BITS = `f`: VX <- the integer part of DT (R213). -/
def State.readDelay (s : State) (f : Nat) (x : RegIx) : State := s.setV x (byteOfTimer f s.dt)

/-- FX15 under TIMER_FRAC_BITS = `f`: DT <- VX, fraction 0 (R214). -/
def State.setDelay (s : State) (f : Nat) (x : RegIx) : State := s.setDt (timerOfByte f (s.getV x))

/-- FX18 under TIMER_FRAC_BITS = `f`: ST <- VX, fraction 0 (R215). -/
def State.setSound (s : State) (f : Nat) (x : RegIx) : State := s.setSt (timerOfByte f (s.getV x))

/-- FX07 with the parameter of this hardware (R6, R213). -/
def execLdVxDt (x : RegIx) (s : State) : Host.Outcome State Fault Refusal := .next (s.readDelay Config.timerFracBits x)

/-- FX15 with the parameter of this hardware (R6, R214). -/
def execLdDtVx (x : RegIx) (s : State) : Host.Outcome State Fault Refusal := .next (s.setDelay Config.timerFracBits x)

/-- FX18 with the parameter of this hardware (R6, R215). -/
def execLdStVx (x : RegIx) (s : State) : Host.Outcome State Fault Refusal := .next (s.setSound Config.timerFracBits x)

end Sys2Proof.Machine
end

