-- ==== Sys2Proof/Machine/Step.lean ====
section
/-! DEFINITION. One step: one call of `iterate` by the host (spec/40_cycle.md R101, R107). A raised fault is a next state whose RUN is
Faulted (log 2). -/

namespace Sys2Proof.Machine

/-- One iteration: nothing but the end of the iteration when the block is not Running; else the timer advance, fetch (or its fault),
decode and execute. -/
def step (s : State) : Host.Outcome State Fault Refusal :=
  match s.run with
  | .faulted _ => .next s.idleIteration
  | .running =>
    match s.beginIteration.fetch with
    | none => .next s.fetchFaultIteration
    | some (w, t) => closeIteration (exec (decode w) t)

/-- `s` with the table word `w` of `nbits` bits where the next step fetches, and the block Running (log 5). -/
def State.withFetchWord (s : State) (nbits w : Nat) : State :=
  { s with mem := placeWord s.mem s.pc.toNat nbits w, run := .running }

end Sys2Proof.Machine
end

