-- ==== Sys2Proof/Safety.lean ====
section
/-! DEFINITION. What claims about this machine are stated in: a run that never faults, and the invariants of the state (spec/10_state.md R26,
R29, R44; spec/20_memory.md R50; spec/60_exceptions.md R253). -/

namespace Sys2Proof.Machine

/-- The block has not faulted (R36). -/
def Running (s : State) : Prop := s.run = .running

/-- After `k` iterations the machine is still in a state, and the block has not faulted: a safe run. -/
def SafeRun (k : Nat) (s : State) : Prop := ∃ t, Sys2Proof.core.run k s = .next t ∧ Running t

/-- PC is at most 0x10FE and every return address on the stack at most 0x1000 (R26, R24). -/
def ControlBounded (s : State) : Prop :=
  s.pc.toNat ≤ 0x10FE ∧ ∀ k : Fin Config.stackDepth, k.val < s.sp.val → s.stack[k.val].toNat ≤ 0x1000

/-- Both timers lie in 0 .. 255 · 2^F (R29, R44). -/
def TimersBounded (s : State) : Prop :=
  s.dt ≤ 255 * 2 ^ Config.timerFracBits ∧ s.st ≤ 255 * 2 ^ Config.timerFracBits

/-- The memory is in its canonical form (log 10). -/
def MemoryCanonical (s : State) : Prop := s.mem.wf

/-- A faulted block raises no present output, and the record of a fault of a step names the PC at which the block stands
(R253). -/
def FaultRecorded (s : State) : Prop :=
  ∀ r, s.run = .faulted r → s.present = false ∧ (r.cause = .loadOverflow ∨ r.pc = some s.pc)

/-- A state of the machine that keeps every bound the spec gives it. -/
structure Inv (s : State) : Prop where
  /-- PC and the return addresses. -/
  control : ControlBounded s
  /-- The timers. -/
  timers : TimersBounded s
  /-- The memory. -/
  memory : MemoryCanonical s
  /-- The fault record. -/
  fault : FaultRecorded s

/-- The sprite of the row bytes `bs` at column `x0` and row `y0` has a 1 bit over the pixel (x, y) of the grid: row i of the sprite
lies at y0 + i, bit 7 - j of its byte at column x0 + j, and nothing lies past column 63 or row 31 (spec/44_display.md R190,
R194, R195). -/
def spriteBit (bs : List Byte) (x0 y0 x y : Nat) : Bool :=
  if x < 64 ∧ y < 32 ∧ y0 ≤ y ∧ y < y0 + bs.length ∧ x0 ≤ x ∧ x < x0 + 8 then (bs.getD (y - y0) 0).getLsbD (7 - (x - x0))
  else false

/-- Key `k` has completed a press and release for FX0A: it was marked in the shadow and is no longer held (spec/46_input.md R234). -/
def keyEdge (keys shadow : BitVec 16) (k : Nat) : Bool := shadow.getLsbD k && !keys.getLsbD k

end Sys2Proof.Machine
end

