-- ==== Sys2Proof/Certificates/Slice0/Obligations.lean ====
section
/-! DEFINITION. The statements for the provers, each a rule of spec/ about what an instruction or the machine does, and the words they
are stated in (namespace Claims). `exec i s` starts from the state after fetch: s.pc is the address of the instruction plus 2
(spec/10_state.md R24). -/

open Sys2Proof Sys2Proof.Machine

/-! ### The words of the statements -/

namespace Sys2Proof.Claims

/-- Every word that `mask` and `mtch` select decodes to the instruction `build` reads from its bits (spec/30_encoding.md R78). -/
def Encodes (mask mtch : Word) (build : Word → Instr) : Prop := ∀ w : Word, w &&& mask = mtch → decode w = build w

/-- The X field, bits 11:8 (R71). -/
def xOf (w : Word) : RegIx := w.extractLsb' 8 4

/-- The Y field, bits 7:4 (R71). -/
def yOf (w : Word) : RegIx := w.extractLsb' 4 4

/-- The N field, bits 3:0 (R71). -/
def nOf (w : Word) : Nibble := w.extractLsb' 0 4

/-- The NN field, bits 7:0 (R71). -/
def nnOf (w : Word) : Byte := w.extractLsb' 0 8

/-- The NNN field, bits 11:0 (R71). -/
def nnnOf (w : Word) : Addr12 := w.extractLsb' 0 12

/-- One row of the opcode map (R78): match, mask, the mask under DECODE_STRICT, and the instruction. -/
structure MapRow where
  /-- The match column. -/
  mtch : Word
  /-- The mask column. -/
  mask : Word
  /-- The mask under DECODE_STRICT true. -/
  strictMask : Word
  /-- The instruction of a selected word. -/
  build : Word → Instr

/-- The row's mask under DECODE_STRICT = `strict`. -/
def MapRow.maskFor (r : MapRow) (strict : Bool) : Word := if strict then r.strictMask else r.mask

/-- The rows of opcodes 0x0 to 0x7 (R78). -/
def mapLow : List MapRow :=
  [⟨0x00E0, 0xF0FF, 0xFFFF, fun _ => .cls⟩, ⟨0x00EE, 0xF0FF, 0xFFFF, fun _ => .ret⟩] ++
  [⟨0x1000, 0xF000, 0xF000, fun w => .jp (nnnOf w)⟩, ⟨0x2000, 0xF000, 0xF000, fun w => .call (nnnOf w)⟩] ++
  [⟨0x3000, 0xF000, 0xF000, fun w => .seImm (xOf w) (nnOf w)⟩, ⟨0x4000, 0xF000, 0xF000, fun w => .sneImm (xOf w) (nnOf w)⟩] ++
  [⟨0x5000, 0xF000, 0xF00F, fun w => .seReg (xOf w) (yOf w)⟩] ++
  [⟨0x6000, 0xF000, 0xF000, fun w => .ldImm (xOf w) (nnOf w)⟩, ⟨0x7000, 0xF000, 0xF000, fun w => .addImm (xOf w) (nnOf w)⟩]

/-- The rows of opcode 0x8 (R78). -/
def map8 : List MapRow :=
  [⟨0x8000, 0xF00F, 0xF00F, fun w => .ldReg (xOf w) (yOf w)⟩, ⟨0x8001, 0xF00F, 0xF00F, fun w => .orReg (xOf w) (yOf w)⟩] ++
  [⟨0x8002, 0xF00F, 0xF00F, fun w => .andReg (xOf w) (yOf w)⟩, ⟨0x8003, 0xF00F, 0xF00F, fun w => .xorReg (xOf w) (yOf w)⟩] ++
  [⟨0x8004, 0xF00F, 0xF00F, fun w => .addReg (xOf w) (yOf w)⟩, ⟨0x8005, 0xF00F, 0xF00F, fun w => .subReg (xOf w) (yOf w)⟩] ++
  [⟨0x8006, 0xF00F, 0xF00F, fun w => .shr (xOf w) (yOf w)⟩, ⟨0x8007, 0xF00F, 0xF00F, fun w => .subn (xOf w) (yOf w)⟩] ++
  [⟨0x800E, 0xF00F, 0xF00F, fun w => .shl (xOf w) (yOf w)⟩]

/-- The rows of opcodes 0x9 to 0xE (R78). -/
def mapHigh : List MapRow :=
  [⟨0x9000, 0xF000, 0xF00F, fun w => .sneReg (xOf w) (yOf w)⟩] ++
  [⟨0xA000, 0xF000, 0xF000, fun w => .ldI (nnnOf w)⟩, ⟨0xB000, 0xF000, 0xF000, fun w => .jpV0 (nnnOf w)⟩] ++
  [⟨0xC000, 0xF000, 0xF000, fun w => .rnd (xOf w) (nnOf w)⟩, ⟨0xD000, 0xF000, 0xF000, fun w => .drw (xOf w) (yOf w) (nOf w)⟩] ++
  [⟨0xE09E, 0xF0FF, 0xF0FF, fun w => .skp (xOf w)⟩, ⟨0xE0A1, 0xF0FF, 0xF0FF, fun w => .sknp (xOf w)⟩]

/-- The rows of opcode 0xF (R78). -/
def mapF : List MapRow :=
  [⟨0xF007, 0xF0FF, 0xF0FF, fun w => .ldVxDt (xOf w)⟩, ⟨0xF00A, 0xF0FF, 0xF0FF, fun w => .ldVxK (xOf w)⟩] ++
  [⟨0xF015, 0xF0FF, 0xF0FF, fun w => .ldDtVx (xOf w)⟩, ⟨0xF018, 0xF0FF, 0xF0FF, fun w => .ldStVx (xOf w)⟩] ++
  [⟨0xF01E, 0xF0FF, 0xF0FF, fun w => .addI (xOf w)⟩, ⟨0xF029, 0xF0FF, 0xF0FF, fun w => .ldF (xOf w)⟩] ++
  [⟨0xF033, 0xF0FF, 0xF0FF, fun w => .ldB (xOf w)⟩, ⟨0xF055, 0xF0FF, 0xF0FF, fun w => .storeRegs (xOf w)⟩] ++
  [⟨0xF065, 0xF0FF, 0xF0FF, fun w => .loadRegs (xOf w)⟩]

/-- The opcode map of R78, all 34 rows. -/
def opcodeMap : List MapRow := mapLow ++ map8 ++ mapHigh ++ mapF

/-- A word with the bits its row ignores at 0: X of 0XE0 and 0XEE, N of 5XYN and 9XYN (R81). -/
def canonicalWord (w : Word) : Word :=
  if w &&& 0xF0FF#16 = 0x00E0#16 then 0x00E0#16
  else if w &&& 0xF0FF#16 = 0x00EE#16 then 0x00EE#16
  else if w &&& 0xF000#16 = 0x5000#16 then w &&& 0xFFF0#16
  else if w &&& 0xF000#16 = 0x9000#16 then w &&& 0xFFF0#16
  else w

/-- Nothing but the V registers may differ, and they hold `file`: result and frame of a register-only instruction. -/
def VFile (s t : State) (file : RegIx → Byte) : Prop := t = { s with v := t.v } ∧ ∀ k, t.getV k = file k

/-- The registers of `s` with `b` in `x`. -/
def withReg (s : State) (x : RegIx) (b : Byte) : RegIx → Byte := fun k => if k = x then b else s.getV k

/-- The registers of `s` with `b` in `x` and, written last, the flag in VF (R10, R21). -/
def withRegFlag (s : State) (x : RegIx) (b flag : Byte) : RegIx → Byte :=
  fun k => if k = 0xF#4 then flag else if k = x then b else s.getV k

/-- The big-endian word at an address whose two bytes exist (spec/20_memory.md R53). -/
def wordAt (s : State) (a : Nat) : Option Word :=
  if a + 1 ≤ 0xFFF then some (s.mem.get a ++ s.mem.get (a + 1)) else none

/-- The state after a fault raised by the instruction at s.pc - 2: PC back at it, no present, the record in RUN, nothing else
changed (spec/60_exceptions.md R251, R253). -/
def faultedState (s : State) (cause : Fault) (info : Option Nat) : State :=
  { s with
    pc := s.pc - 2#16
    present := false
    run := .faulted ⟨cause, some (s.pc - 2#16), wordAt s (s.pc - 2#16).toNat, info⟩ }

/-- The state in which an iteration fetches: both timers advanced by e, never below 0, and the present output down (spec/45_timers.md
R211, spec/40_cycle.md R101). -/
def advanced (s : State) : State :=
  { s with dt := s.dt - s.input.elapsed, st := s.st - s.input.elapsed, present := false }

/-- The model's own bookkeeping at the end of an iteration: its inputs are used up (log 3). -/
def iterationDone (s : State) : State := { s with inputs := s.inputs.tail, iter := s.iter + 1 }

/-- PC after a skip (spec/41_flow.md R123). -/
def skipTo (s : State) (c : Prop) [Decidable c] : State := { s with pc := if c then s.pc + 2#16 else s.pc }

/-- Which registers the instruction may write (spec/10_state.md R22). -/
def writesReg : Instr → RegIx → Bool
  | .ldImm x _, k | .addImm x _, k | .ldReg x _, k | .orReg x _, k | .andReg x _, k | .xorReg x _, k => k == x
  | .rnd x _, k | .ldVxDt x, k | .ldVxK x, k => k == x
  | .addReg x _, k | .subReg x _, k | .shr x _, k | .subn x _, k | .shl x _, k => k == x || k == 0xF#4
  | .drw _ _ _, k | .addI _, k => k == 0xF#4
  | .loadRegs x, k => decide (k.toNat ≤ x.toNat)
  | .cls, _ | .ret, _ | .jp _, _ | .call _, _ | .seImm _ _, _ | .sneImm _ _, _ | .seReg _ _, _ | .sneReg _ _, _ => false
  | .ldI _, _ | .jpV0 _, _ | .skp _, _ | .sknp _, _ | .ldDtVx _, _ | .ldStVx _, _ | .ldF _, _ | .ldB _, _ => false
  | .storeRegs _, _ | .unmatched _, _ => false

/-- How many bytes from I upwards the instruction stores (spec/20_memory.md R52). -/
def storedBytes : Instr → Nat
  | .ldB _ => 3
  | .storeRegs x => x.toNat + 1
  | .cls | .ret | .jp _ | .call _ | .seImm _ _ | .sneImm _ _ | .seReg _ _ | .sneReg _ _ | .ldImm _ _ | .addImm _ _ => 0
  | .ldReg _ _ | .orReg _ _ | .andReg _ _ | .xorReg _ _ | .addReg _ _ | .subReg _ _ | .shr _ _ | .subn _ _ | .shl _ _ => 0
  | .ldI _ | .jpV0 _ | .rnd _ _ | .drw _ _ _ | .skp _ | .sknp _ | .ldVxDt _ | .ldVxK _ | .ldDtVx _ | .ldStVx _ => 0
  | .addI _ | .ldF _ | .loadRegs _ | .unmatched _ => 0

/-- The instruction touches the framebuffer: 00E0 and DXYN (spec/44_display.md R197). -/
def touchesDisplay : Instr → Bool
  | .cls => true
  | .drw _ _ _ => true
  | .ret | .jp _ | .call _ | .seImm _ _ | .sneImm _ _ | .seReg _ _ | .sneReg _ _ | .ldImm _ _ | .addImm _ _ => false
  | .ldReg _ _ | .orReg _ _ | .andReg _ _ | .xorReg _ _ | .addReg _ _ | .subReg _ _ | .shr _ _ | .subn _ _ | .shl _ _ => false
  | .ldI _ | .jpV0 _ | .rnd _ _ | .skp _ | .sknp _ | .ldVxDt _ | .ldVxK _ | .ldDtVx _ | .ldStVx _ => false
  | .addI _ | .ldF _ | .ldB _ | .storeRegs _ | .loadRegs _ | .unmatched _ => false

/-- The instruction reads the key snapshot: EX9E, EXA1, FX0A (spec/46_input.md R231). -/
def readsKeys : Instr → Prop
  | .skp _ | .sknp _ | .ldVxK _ => True
  | .cls | .drw _ _ _ => False
  | .ret | .jp _ | .call _ | .seImm _ _ | .sneImm _ _ | .seReg _ _ | .sneReg _ _ | .ldImm _ _ | .addImm _ _ => False
  | .ldReg _ _ | .orReg _ _ | .andReg _ _ | .xorReg _ _ | .addReg _ _ | .subReg _ _ | .shr _ _ | .subn _ _ | .shl _ _ => False
  | .ldI _ | .jpV0 _ | .rnd _ _ | .ldVxDt _ | .ldDtVx _ | .ldStVx _ => False
  | .addI _ | .ldF _ | .ldB _ | .storeRegs _ | .loadRegs _ | .unmatched _ => False

/-- The address the instruction leaves in PC when it does not fault (spec/10_state.md R25); s.pc is the instruction's address
plus 2. -/
def pcAfter (i : Instr) (s : State) (pc : Word) : Prop :=
  match i with
  | .jp nnn | .call nnn => pc = nnn.setWidth 16
  | .jpV0 nnn => pc.toNat = nnn.toNat + (s.getV 0x0#4).toNat
  | .ret => ∃ h : s.sp.val - 1 < Config.stackDepth, 0 < s.sp.val ∧ pc = s.stack[s.sp.val - 1]
  | .seImm x nn => pc = if s.getV x = nn then s.pc + 2#16 else s.pc
  | .sneImm x nn => pc = if s.getV x = nn then s.pc else s.pc + 2#16
  | .seReg x y => pc = if s.getV x = s.getV y then s.pc + 2#16 else s.pc
  | .sneReg x y => pc = if s.getV x = s.getV y then s.pc else s.pc + 2#16
  | .skp x => pc = if s.input.keys.getLsbD (s.getV x).toNat then s.pc + 2#16 else s.pc
  | .sknp x => pc = if s.input.keys.getLsbD (s.getV x).toNat then s.pc else s.pc + 2#16
  | .ldVxK _ => pc = if ∃ k, k < 16 ∧ keyEdge s.input.keys s.shadow k = true then s.pc else s.pc - 2#16
  | .cls | .ldImm _ _ | .addImm _ _ | .ldReg _ _ | .orReg _ _ | .andReg _ _ | .xorReg _ _ => pc = s.pc
  | .addReg _ _ | .subReg _ _ | .shr _ _ | .subn _ _ | .shl _ _ | .ldI _ | .rnd _ _ | .drw _ _ _ => pc = s.pc
  | .ldVxDt _ | .ldDtVx _ | .ldStVx _ | .addI _ | .ldF _ | .ldB _ | .storeRegs _ | .loadRegs _ | .unmatched _ => pc = s.pc

/-- The row bytes of the drawn rows of a sprite of height `n` at row `y0` (spec/44_display.md R192, R196). -/
def rowBytes (s : State) (n : Nibble) (y0 : Nat) : List Byte :=
  (List.range (min n.toNat (32 - y0))).map fun i => s.mem.get (s.i.toNat + i)

/-- Every drawn row of the sprite lies at or below 0xFFF (R192). -/
def rowsInMemory (s : State) (n : Nibble) (y0 : Nat) : Prop :=
  ∀ i, i < min n.toNat (32 - y0) → s.i.toNat + i ≤ 0xFFF

end Sys2Proof.Claims

open Sys2Proof.Claims

/-! ### Encoding -/

/-- spec/30_encoding.md R70, R72, R78, R83 (derived): no bit of an encoding is dropped. For every well-formed instruction, at every
value of its operands, decoding its word gives it back, and so does decoding its two bytes with any bytes after them. -/
def Obligations.DecodeEncodeRoundTrip : Prop :=
  ∀ i : Instr, i.wf = true →
    decode (encode i) = i ∧ ∀ rest : List Byte, decodeBytes (encodeBytes i ++ rest) = .ok (i, rest)

/-- spec/30_encoding.md section 6 (derived: that 0XE0, 0XEE, 5XYN and 9XYN are aliases rests on decision D10; that the encoder
writes the ignored bits as 0 is the model's choice, log 13): every word decodes to a well-formed instruction, whose encoding is the
word with its ignored bits at 0. -/
def Obligations.EncodeDecodeGivesCanonicalWord : Prop :=
  ∀ w : Word, (decode w).wf = true ∧ encode (decode w) = canonicalWord w

/-- spec/30_encoding.md R78: under either setting of DECODE_STRICT, a word that a row's match and mask select decodes to that row's
instruction, a word that no row selects is unmatched, and no word is selected by two rows. -/
def Obligations.DecodeFollowsOpcodeMap : Prop :=
  ∀ (strict : Bool) (w : Word),
    (∀ r ∈ opcodeMap, w &&& r.maskFor strict = r.mtch → decodeWith strict w = r.build w) ∧
    ((∀ r ∈ opcodeMap, w &&& r.maskFor strict ≠ r.mtch) → decodeWith strict w = .unmatched w) ∧
    (∀ r₁ ∈ opcodeMap, ∀ r₂ ∈ opcodeMap,
      w &&& r₁.maskFor strict = r₁.mtch → w &&& r₂.maskFor strict = r₂.mtch → r₁.mtch = r₂.mtch)

/-- spec/30_encoding.md R79 (derived): a word decodes as unmatched exactly when it is one of the words R79 lists. -/
def Obligations.UnmatchedWordsAreTheListedOnes : Prop :=
  ∀ (strict : Bool) (w : Word), decodeWith strict w = .unmatched w ↔ unmatchedWord strict w = true

/-- A few words written out from the encodings of spec/30_encoding.md R73, one of each format, and one unmatched (sanity). -/
def Obligations.SpecWordsDecode : Prop :=
  decode 0x00E0#16 = .cls ∧ decode 0x1ABC#16 = .jp 0xABC#12 ∧ decode 0x6A9C#16 = .ldImm 0xA#4 0x9C#8 ∧
    decode 0x8124#16 = .addReg 0x1#4 0x2#4 ∧ decode 0xD015#16 = .drw 0x0#4 0x1#4 0x5#4 ∧ decode 0xF365#16 = .loadRegs 0x3#4 ∧
    decode 0xE59E#16 = .skp 0x5#4 ∧ decode 0x800F#16 = .unmatched 0x800F#16

/-! ### The cycle -/

/-- spec/40_cycle.md R101, R102, R107 (derived; that the end of an iteration uses up its inputs and counts it, iterationDone, is the
model's choice, log 3): a running block whose word at PC is the big-endian pair of the bytes at PC and PC + 1 executes the decoded
instruction, which is well-formed, in the state with the timers advanced and PC two further; the step adds only the model's own end
of the iteration. -/
def Obligations.StepRunsDecodedInstruction : Prop :=
  ∀ (s : State) (i : Instr), s.run = .running → s.pc.toNat + 1 ≤ 0xFFF →
    decode (s.mem.get s.pc.toNat ++ s.mem.get (s.pc.toNat + 1)) = i →
    i.wf = true ∧
    step s = match exec i { advanced s with pc := s.pc + 2#16 } with
      | .next t => .next (iterationDone t)
      | .fault r => .fault r
      | .refused r => .refused r

/-- spec/40_cycle.md R104 (derived; that the end of an iteration uses up its inputs and counts it, iterationDone, is the model's
choice, log 3): an unmatched word executes as a no-op: after fetch has set PC to a + 2 nothing else changes, no fault is raised and
present is false; a step adds the timer advance before the fetch and the model's own end of the iteration. -/
def Obligations.UnmatchedWordIsNoOp : Prop :=
  (∀ (w : Word) (s : State), exec (.unmatched w) s = .next s) ∧
  ∀ (s : State) (w : Word), s.run = .running → s.pc.toNat + 1 ≤ 0xFFF →
    w = s.mem.get s.pc.toNat ++ s.mem.get (s.pc.toNat + 1) → decode w = .unmatched w →
    step s = .next (iterationDone { advanced s with pc := s.pc + 2#16, present := false })

/-- spec/40_cycle.md R102 and decision D9 (derived; that the end of an iteration uses up its inputs and counts it, iterationDone, is
the model's choice, log 3): a fetch with PC + 1 > 0xFFF raises FetchOutOfRange: PC stays, the record has no word and info = PC, and
of the spec's state nothing changes but the timers, RUN and present; of the model's own fields, inputs and iter. -/
def Obligations.FetchPastMemoryFaults : Prop :=
  ∀ s : State, s.run = .running → 0xFFF < s.pc.toNat + 1 →
    step s = .next (iterationDone
      { advanced s with run := .faulted ⟨.fetchOutOfRange, some s.pc, none, some s.pc.toNat⟩ })

/-- spec/60_exceptions.md R257, spec/40_cycle.md R101 and decision D11 (derived; that the present output is then false and that the call
uses up its inputs is the model's reading, logs 3 and 4): an iteration of a faulted block takes no step. -/
def Obligations.StoppedBlockTakesNoStep : Prop :=
  ∀ (s : State) (r : FaultRecord), s.run = .faulted r → step s = .next (iterationDone { s with present := false })

/-- spec/40_cycle.md R100, R108 (derived; that a fault is a next state is the model's form, log 2): every instruction in every state, and
so every step, answers a next state. -/
def Obligations.EveryStepAnswersAState : Prop :=
  (∀ (i : Instr) (s : State), ∃ t, exec i s = .next t) ∧ ∀ s : State, ∃ t, step s = .next t

/-- spec/45_timers.md R210, R211 and decision D13 (derived): in every iteration of a running block each timer loses e and stops at 0,
unless the iteration's instruction is the one that sets that timer. -/
def Obligations.TimersCountDownEachIteration : Prop :=
  ∀ s t : State, s.run = .running → step s = .next t →
    ((∀ x, decode (s.mem.get s.pc.toNat ++ s.mem.get (s.pc.toNat + 1)) ≠ .ldDtVx x) →
      t.dt = if s.dt > s.input.elapsed then s.dt - s.input.elapsed else 0) ∧
    ((∀ x, decode (s.mem.get s.pc.toNat ++ s.mem.get (s.pc.toNat + 1)) ≠ .ldStVx x) →
      t.st = if s.st > s.input.elapsed then s.st - s.input.elapsed else 0)

/-! ### Invariants -/

/-- spec/20_memory.md R50 (derived; the canonical form is the model's, log 10): every step keeps memory in its canonical form. -/
def Obligations.StepKeepsMemoryCanonical : Prop :=
  ∀ s t : State, MemoryCanonical s → step s = .next t → MemoryCanonical t

/-- spec/10_state.md R26 (derived): every step keeps PC at or below 0x10FE and every return address at or below 0x1000, so no step wraps
PC. -/
def Obligations.StepKeepsControlBounded : Prop :=
  ∀ s t : State, ControlBounded s → step s = .next t → ControlBounded t

/-- spec/10_state.md R29 (derived): every step keeps both timers in 0 .. 255 · 2^F. -/
def Obligations.StepKeepsTimersBounded : Prop :=
  ∀ s t : State, TimersBounded s → step s = .next t → TimersBounded t

/-- spec/60_exceptions.md R253, R257 (derived; that present is false in an iteration that takes no step is the model's reading, log
4): every step keeps it that a faulted block stands at the PC its record names, with no present output. -/
def Obligations.StepKeepsFaultRecorded : Prop :=
  ∀ s t : State, FaultRecorded s → step s = .next t → FaultRecorded t

/-- spec/10_state.md R45, spec/70_reset_and_hazards.md R281 (derived; the canonical form of memory is the model's, log 10; that
State.reset is the state after the empty program is the model's choice, log 5): reset, and every successful load with any font,
meets the invariants. -/
def Obligations.ResetAndLoadMeetInvariants : Prop :=
  Inv State.reset ∧
  ∀ (s : State) (font : FontTable) (program : List Byte), program.length ≤ 0xE00 → Inv (s.load font program)

/-- spec/10_state.md R45 (derived): what reset leaves. PC and the zero fill are the source's; SP = 0 is the spec's own derivation;
RUN rests on decision D11, the zeros of V, I, timers, framebuffer and shadow on D12, the font bytes on D14 (log 7); that no program
stands at 0x200 and above is the model's choice, log 5, and so is what an address above 0xFFF reads as, log 10. -/
def Obligations.ResetState : Prop :=
  State.reset.pc = 0x0200#16 ∧ State.reset.sp.val = 0 ∧ State.reset.run = .running ∧
  (∀ k, State.reset.getV k = 0x00#8) ∧ State.reset.i = 0x0000#16 ∧ State.reset.dt = 0 ∧ State.reset.st = 0 ∧
  State.reset.shadow = 0x0000#16 ∧ (∀ x y, State.reset.fb.pixel x y = false) ∧
  (∀ a, a < 0x050 → State.reset.mem.get a = 0x00#8) ∧
  (∀ k : Fin 80, State.reset.mem.get (0x050 + k.val) = Config.fontTable[k.val]) ∧
  (∀ a, 0x0A0 ≤ a → State.reset.mem.get a = 0x00#8)

/-! ### Faults -/

/-- spec/60_exceptions.md R251, R253, R256 and decision D11 (derived): an instruction that faults keeps none of its effects: PC is
back at its address, present is false, RUN holds the record, which names that address, and nothing else has changed. The record's
word is the one memory holds at that address, which is the word of the instruction where it was fetched there (log 9); a step, which
fetches it there, has its own statement. -/
def Obligations.FaultsArePrecise : Prop :=
  ∀ (i : Instr) (s t : State) (r : FaultRecord), s.run = .running → exec i s = .next t → t.run = .faulted r →
    t = faultedState s r.cause r.info ∧ r.pc = some (s.pc - 2#16) ∧ r.word = wordAt s (s.pc - 2#16).toNat

/-- spec/60_exceptions.md R253, spec/40_cycle.md R105 and decision D11 (derived; that the end of an iteration uses up its inputs and
counts it, iterationDone, is the model's choice, log 3): a step that faults leaves the state as after the timer advance, PC where it
was, present false, and the record in RUN, which names that PC and, unless the fetch itself faulted, the word there; of the model's
own fields, inputs and iter change. -/
def Obligations.FaultingStepIsPrecise : Prop :=
  ∀ (s t : State) (r : FaultRecord), s.run = .running → step s = .next t → t.run = .faulted r →
    t = iterationDone { advanced s with run := .faulted r } ∧ r.pc = some s.pc ∧ r.word = wordAt s s.pc.toNat ∧
    (r.cause = .fetchOutOfRange ↔ 0xFFF < s.pc.toNat + 1)

/-- spec/60_exceptions.md R251, R255 (derived): which instruction can raise which cause, on what condition and with what info; no
instruction raises any other. -/
def Obligations.FaultCausesByInstruction : Prop :=
  ∀ (i : Instr) (s t : State) (r : FaultRecord), s.run = .running → exec i s = .next t → t.run = .faulted r →
    (i = .ret ∧ s.sp.val = 0 ∧ r.cause = .stackUnderflow ∧ r.info = none) ∨
    ((∃ nnn, i = .call nnn) ∧ s.sp.val = 16 ∧ r.cause = .stackOverflow ∧ r.info = none) ∨
    (∃ x, (i = .skp x ∨ i = .sknp x) ∧ 0x0F < (s.getV x).toNat ∧
      r.cause = .keyOutOfRange ∧ r.info = some (s.getV x).toNat) ∨
    (r.cause = .dataOutOfRange ∧ r.info = some (max s.i.toNat 0x1000) ∧
      ((∃ x, i = .ldB x ∧ 0xFFF < s.i.toNat + 2) ∨
       (∃ x, (i = .storeRegs x ∨ i = .loadRegs x) ∧ 0xFFF < s.i.toNat + x.toNat) ∨
       (∃ x y n, i = .drw x y n ∧ ¬ rowsInMemory s n ((s.getV y).toNat % 32))))

/-! ### What no other instruction does -/

/-- spec/10_state.md R22 (derived): an instruction changes no V register but those R22 lists for it. -/
def Obligations.OnlyListedInstructionsWriteRegisters : Prop :=
  ∀ (i : Instr) (s t : State) (k : RegIx), exec i s = .next t → writesReg i k = false → t.getV k = s.getV k

/-- spec/20_memory.md R52 (derived): every byte of memory outside the bytes the instruction stores, I .. I + 2 of FX33 and I .. I + X of
FX55, reads as before; for an instruction that stores nothing, every byte. -/
def Obligations.OnlyStoresWriteMemory : Prop :=
  ∀ (i : Instr) (s t : State) (a : Nat), exec i s = .next t →
    ¬ (s.i.toNat ≤ a ∧ a < s.i.toNat + storedBytes i) → t.mem.get a = s.mem.get a

/-- spec/10_state.md R31, spec/44_display.md R197 (derived; present rests on decision D19, and that it is false in an iteration that
takes no step is the model's reading, log 4): the framebuffer changes only by 00E0 and DXYN, and a step raises present exactly when
it executed one of them without a fault. -/
def Obligations.OnlyClearAndDrawTouchTheDisplay : Prop :=
  (∀ (i : Instr) (s t : State), exec i s = .next t → touchesDisplay i = false → t.fb = s.fb) ∧
  ∀ s t : State, step s = .next t →
    (t.present = true ↔ s.run = .running ∧ t.run = .running ∧ s.pc.toNat + 1 ≤ 0xFFF ∧
      touchesDisplay (decode (s.mem.get s.pc.toNat ++ s.mem.get (s.pc.toNat + 1))) = true)

/-- spec/10_state.md R28, R30 (derived; that a pop leaves the popped entry in place is the model's reading of R30, log 8): only 2NNN
and 00EE change the stack or its count; 00EE changes no entry, 2NNN only the one at SP. -/
def Obligations.OnlyCallAndReturnTouchTheStack : Prop :=
  ∀ (i : Instr) (s t : State), exec i s = .next t →
    ((∀ nnn, i ≠ .call nnn) → t.stack = s.stack) ∧
    ((∀ nnn, i ≠ .call nnn) → i ≠ .ret → t.sp = s.sp) ∧
    ∀ k : Fin Config.stackDepth, k.val ≠ s.sp.val → t.stack[k.val] = s.stack[k.val]

/-- spec/10_state.md R23, R29, R33 (derived): I changes only by ANNN, FX29 and FX1E; DT only by FX15, ST only by FX18 (beside the
timer advance), the shadow only by FX0A. Of the model's own fields, log 3, no instruction changes inputs or iter: only the end of
the iteration does. -/
def Obligations.SpecialRegistersFrame : Prop :=
  ∀ (i : Instr) (s t : State), exec i s = .next t →
    ((∀ nnn, i ≠ .ldI nnn) → (∀ x, i ≠ .ldF x) → (∀ x, i ≠ .addI x) → t.i = s.i) ∧
    ((∀ x, i ≠ .ldDtVx x) → t.dt = s.dt) ∧ ((∀ x, i ≠ .ldStVx x) → t.st = s.st) ∧
    ((∀ x, i ≠ .ldVxK x) → t.shadow = s.shadow) ∧ t.inputs = s.inputs ∧ t.iter = s.iter

/-- spec/10_state.md R25 (derived): what each instruction leaves in PC when it does not fault. -/
def Obligations.ProgramCounterAfterInstruction : Prop :=
  ∀ (i : Instr) (s t : State), exec i s = .next t → t.run = .running → pcAfter i s t.pc

/-- spec/46_input.md R231, spec/10_state.md R32, R42 and decisions D17, D18 (derived; that the inputs stand in the fields inputs and
iter is the model's choice, log 3): the inputs of the iteration reach only the instructions that read them: with any other inputs
that agree on KEY for EX9E, EXA1 and FX0A and on RND for CXNN, the instruction does the same. -/
def Obligations.InputsReachOnlyTheirReaders : Prop :=
  ∀ (i : Instr) (s t : State) (q : List Input) (n : Nat), exec i s = .next t →
    (readsKeys i → ({ s with inputs := q, iter := n } : State).input.keys = s.input.keys) →
    (∀ x nn, i = .rnd x nn → ({ s with inputs := q, iter := n } : State).input.rnd = s.input.rnd) →
    exec i { s with inputs := q, iter := n } = .next { t with inputs := q, iter := n }

/-- spec/10_state.md R29, R37, spec/45_timers.md R215 (derived): no instruction reads the sound timer, and only FX0A reads the shadow: with
another value there, every other instruction does the same and leaves that value (FX18 sets its own). -/
def Obligations.SoundTimerAndShadowAreNotRead : Prop :=
  (∀ (i : Instr) (s t : State) (n : Nat), exec i s = .next t →
    ∃ u, exec i { s with st := n } = .next u ∧ u = { t with st := u.st } ∧ ((∀ x, i ≠ .ldStVx x) → u.st = n)) ∧
  ∀ (i : Instr) (s t : State) (w : BitVec 16), exec i s = .next t → (∀ x, i ≠ .ldVxK x) →
    exec i { s with shadow := w } = .next { t with shadow := w }

/-! ### Control transfer -/

/-- spec/41_flow.md R121: 1NNN sets PC to NNN and changes nothing else; a jump to its own address leaves the block running at that
address, on the same memory; after a jump to 0xFFF the next fetch faults. -/
def Obligations.JumpSetsPc : Prop :=
  Encodes 0xF000#16 0x1000#16 (fun w => .jp (nnnOf w)) ∧
  (∀ (nnn : Addr12) (s : State), exec (.jp nnn) s = .next { s with pc := nnn.setWidth 16 }) ∧
  (∀ (nnn : Addr12) (s : State), s.run = .running → s.pc = nnn.setWidth 16 → s.pc.toNat + 1 ≤ 0xFFF →
    decode (s.mem.get s.pc.toNat ++ s.mem.get (s.pc.toNat + 1)) = .jp nnn →
    ∃ t, step s = .next t ∧ t.pc = s.pc ∧ t.run = .running ∧ t.mem = s.mem) ∧
  ∀ s t : State, s.run = .running → exec (.jp 0xFFF#12) s = .next t →
    ∃ u r, step t = .next u ∧ u.run = .faulted r ∧ r.cause = .fetchOutOfRange

/-- spec/41_flow.md R127 and decision D3 (derived): BNNN sets PC to NNN + V0, not masked and never wrapping, and changes nothing else. -/
def Obligations.OffsetJumpAddsV0 : Prop :=
  Encodes 0xF000#16 0xB000#16 (fun w => .jpV0 (nnnOf w)) ∧
  ∀ (nnn : Addr12) (s : State), ∃ t, exec (.jpV0 nnn) s = .next t ∧ t = { s with pc := t.pc } ∧
    t.pc.toNat = nnn.toNat + (s.getV 0x0#4).toNat

/-- spec/41_flow.md R122, spec/10_state.md R30 and decision D2 (derived): 2NNN pushes PC and sets PC to NNN; on a full stack it raises
StackOverflow. -/
def Obligations.CallPushesReturnAddress : Prop :=
  Encodes 0xF000#16 0x2000#16 (fun w => .call (nnnOf w)) ∧
  ∀ (nnn : Addr12) (s : State),
    (s.sp.val < 16 → ∃ t, exec (.call nnn) s = .next t ∧ t = { s with pc := nnn.setWidth 16, stack := t.stack, sp := t.sp } ∧
      t.sp.val = s.sp.val + 1 ∧
      ∀ k : Fin Config.stackDepth, t.stack[k.val] = if k.val = s.sp.val then s.pc else s.stack[k.val]) ∧
    (s.sp.val = 16 → exec (.call nnn) s = .next (faultedState s .stackOverflow none))

/-- spec/41_flow.md R120, spec/10_state.md R30 (derived: the ignored X rests on decision D10, the record on D11): 00EE sets PC to the
newest entry and lowers SP; on an empty stack it raises StackUnderflow. -/
def Obligations.ReturnPopsIntoPc : Prop :=
  Encodes 0xF0FF#16 0x00EE#16 (fun _ => .ret) ∧
  ∀ s : State,
    (∀ k : Fin Config.stackDepth, s.sp.val = k.val + 1 →
      ∃ t, exec .ret s = .next t ∧ t = { s with pc := s.stack[k.val], sp := t.sp } ∧ t.sp.val = k.val) ∧
    (s.sp.val = 0 → exec .ret s = .next (faultedState s .stackUnderflow none))

/-- spec/41_flow.md R120, R122, R128 (derived): a return that finds the stack as the call left it goes back to the instruction after
the call, with the stack as deep as before. -/
def Obligations.ReturnUndoesCall : Prop :=
  ∀ (nnn : Addr12) (s t u : State), s.sp.val < 16 → exec (.call nnn) s = .next t → u.stack = t.stack → u.sp = t.sp →
    exec .ret u = .next { u with pc := s.pc, sp := s.sp }

/-- spec/41_flow.md R123, R124: 3XNN skips two bytes when VX = NN and 4XNN when VX ≠ NN; nothing else changes; after a skip at 0xFFC or
higher (s.pc is the instruction's address plus 2) PC is at least 0x1000 and the next fetch faults. -/
def Obligations.SkipOnImmediate : Prop :=
  Encodes 0xF000#16 0x3000#16 (fun w => .seImm (xOf w) (nnOf w)) ∧
  Encodes 0xF000#16 0x4000#16 (fun w => .sneImm (xOf w) (nnOf w)) ∧
  (∀ (x : RegIx) (nn : Byte) (s : State),
    exec (.seImm x nn) s = .next (skipTo s (s.getV x = nn)) ∧
    exec (.sneImm x nn) s = .next (skipTo s (s.getV x ≠ nn))) ∧
  ∀ (x : RegIx) (nn : Byte) (s t : State), ControlBounded s → s.run = .running → 0xFFE ≤ s.pc.toNat →
    (s.getV x = nn ∧ exec (.seImm x nn) s = .next t ∨ s.getV x ≠ nn ∧ exec (.sneImm x nn) s = .next t) →
    0x1000 ≤ t.pc.toNat ∧ ∃ u r, step t = .next u ∧ u.run = .faulted r ∧ r.cause = .fetchOutOfRange

/-- spec/41_flow.md R125, R126 (derived: the ignored N rests on decision D10): 5XY0 skips two bytes when VX = VY and 9XY0 when VX ≠ VY;
nothing else changes. -/
def Obligations.SkipOnRegisters : Prop :=
  Encodes 0xF000#16 0x5000#16 (fun w => .seReg (xOf w) (yOf w)) ∧
  Encodes 0xF000#16 0x9000#16 (fun w => .sneReg (xOf w) (yOf w)) ∧
  ∀ (x y : RegIx) (s : State),
    exec (.seReg x y) s = .next (skipTo s (s.getV x = s.getV y)) ∧
    exec (.sneReg x y) s = .next (skipTo s (s.getV x ≠ s.getV y))

/-! ### Loads and arithmetic -/

/-- spec/42_alu.md R140, R142: 6XNN puts NN, and 8XY0 the value of VY, into VX; no other register and nothing else changes. -/
def Obligations.LoadImmediateAndCopy : Prop :=
  Encodes 0xF000#16 0x6000#16 (fun w => .ldImm (xOf w) (nnOf w)) ∧
  Encodes 0xF00F#16 0x8000#16 (fun w => .ldReg (xOf w) (yOf w)) ∧
  (∀ (x : RegIx) (nn : Byte) (s : State), ∃ t, exec (.ldImm x nn) s = .next t ∧ VFile s t (withReg s x nn)) ∧
  ∀ (x y : RegIx) (s : State), ∃ t, exec (.ldReg x y) s = .next t ∧ VFile s t (withReg s x (s.getV y))

/-- spec/42_alu.md R141: 7XNN puts (VX + NN) mod 256 into VX; VF is not written as a flag, and twice in a row from v gives
(v + 2·NN) mod 256. -/
def Obligations.AddImmediateWraps : Prop :=
  Encodes 0xF000#16 0x7000#16 (fun w => .addImm (xOf w) (nnOf w)) ∧
  ∀ (x : RegIx) (nn : Byte) (s : State), ∃ t u, exec (.addImm x nn) s = .next t ∧
    VFile s t (withReg s x (BitVec.ofNat 8 (((s.getV x).toNat + nn.toNat) % 256))) ∧
    exec (.addImm x nn) t = .next u ∧ (u.getV x).toNat = ((s.getV x).toNat + 2 * nn.toNat) % 256

/-- spec/42_alu.md R143, R144, R145 (derived: that VF is not reset is the spec's inference): 8XY1, 8XY2, 8XY3 put the bitwise OR, AND,
XOR of VX and VY into VX; nothing else changes. -/
def Obligations.BitwiseOperations : Prop :=
  Encodes 0xF00F#16 0x8001#16 (fun w => .orReg (xOf w) (yOf w)) ∧
  Encodes 0xF00F#16 0x8002#16 (fun w => .andReg (xOf w) (yOf w)) ∧
  Encodes 0xF00F#16 0x8003#16 (fun w => .xorReg (xOf w) (yOf w)) ∧
  ∀ (x y : RegIx) (s : State),
    (∃ t, exec (.orReg x y) s = .next t ∧ VFile s t (withReg s x (s.getV x ||| s.getV y))) ∧
    (∃ t, exec (.andReg x y) s = .next t ∧ VFile s t (withReg s x (s.getV x &&& s.getV y))) ∧
    (∃ t, exec (.xorReg x y) s = .next t ∧ VFile s t (withReg s x (s.getV x ^^^ s.getV y)))

/-- spec/42_alu.md R146: 8XY4 puts the sum mod 256 into VX and the carry, written last, into VF; nothing else changes. -/
def Obligations.AddWithCarry : Prop :=
  Encodes 0xF00F#16 0x8004#16 (fun w => .addReg (xOf w) (yOf w)) ∧
  ∀ (x y : RegIx) (s : State), ∃ t, exec (.addReg x y) s = .next t ∧
    VFile s t (withRegFlag s x (BitVec.ofNat 8 (((s.getV x).toNat + (s.getV y).toNat) % 256))
      (if (s.getV x).toNat + (s.getV y).toNat > 255 then 0x01#8 else 0x00#8))

/-- spec/42_alu.md R147, R149: 8XY5 puts the integer difference VX - VY, and 8XY7 VY - VX, mod 256 into VX and the no-borrow flag,
written last, into VF; nothing else changes. -/
def Obligations.SubtractWithNoBorrowFlag : Prop :=
  Encodes 0xF00F#16 0x8005#16 (fun w => .subReg (xOf w) (yOf w)) ∧
  Encodes 0xF00F#16 0x8007#16 (fun w => .subn (xOf w) (yOf w)) ∧
  ∀ (x y : RegIx) (s : State),
    (∃ t, exec (.subReg x y) s = .next t ∧
      VFile s t (withRegFlag s x (BitVec.ofInt 8 (((s.getV x).toNat - (s.getV y).toNat : Int) % 256))
        (if (s.getV x).toNat ≥ (s.getV y).toNat then 0x01#8 else 0x00#8))) ∧
    (∃ t, exec (.subn x y) s = .next t ∧
      VFile s t (withRegFlag s x (BitVec.ofInt 8 (((s.getV y).toNat - (s.getV x).toNat : Int) % 256))
        (if (s.getV y).toNat ≥ (s.getV x).toNat then 0x01#8 else 0x00#8)))

/-- spec/42_alu.md R148, R150: 8XY6 halves VX with VF its old bit 0, 8XYE doubles VX mod 256 with VF its old bit 7, VF written last; VY
is not read, and nothing else changes. -/
def Obligations.ShiftsByOne : Prop :=
  Encodes 0xF00F#16 0x8006#16 (fun w => .shr (xOf w) (yOf w)) ∧
  Encodes 0xF00F#16 0x800E#16 (fun w => .shl (xOf w) (yOf w)) ∧
  ∀ (x y : RegIx) (s : State),
    (∃ t, exec (.shr x y) s = .next t ∧
      VFile s t (withRegFlag s x (BitVec.ofNat 8 ((s.getV x).toNat / 2)) (BitVec.ofNat 8 ((s.getV x).toNat % 2)))) ∧
    (∃ t, exec (.shl x y) s = .next t ∧
      VFile s t (withRegFlag s x (BitVec.ofNat 8 ((s.getV x).toNat * 2 % 256))
        (BitVec.ofNat 8 ((s.getV x).toNat / 128))))

/-- spec/42_alu.md R151 and decision D18 (derived): CXNN puts the random byte of the iteration AND NN into VX, whatever that byte is;
nothing else changes. -/
def Obligations.RandomByteIsMasked : Prop :=
  Encodes 0xF000#16 0xC000#16 (fun w => .rnd (xOf w) (nnOf w)) ∧
  ∀ (x : RegIx) (nn : Byte) (s : State), ∃ t, exec (.rnd x nn) s = .next t ∧ VFile s t (withReg s x (s.input.rnd &&& nn))

/-! ### The index register and memory transfers -/

/-- spec/43_index_memory.md R170, R172: ANNN puts NNN, and FX29 the address of the glyph of VX's low nibble, into I; nothing else
changes. -/
def Obligations.LoadIndexAndGlyph : Prop :=
  Encodes 0xF000#16 0xA000#16 (fun w => .ldI (nnnOf w)) ∧
  Encodes 0xF0FF#16 0xF029#16 (fun w => .ldF (xOf w)) ∧
  (∀ (nnn : Addr12) (s : State), exec (.ldI nnn) s = .next { s with i := nnn.setWidth 16 }) ∧
  ∀ (x : RegIx) (s : State), ∃ t, exec (.ldF x) s = .next t ∧ t = { s with i := t.i } ∧
    t.i.toNat = 0x050 + (s.getV x &&& 0x0F#8).toNat * 5

/-- spec/43_index_memory.md R171 and decisions D4, D5 (derived): FX1E adds VX to I, modulo 2^16, or modulo 0x1000 under I_MASK_12, and
writes VF last: 1 when the sum exceeds 0xFFF, else 0 under FX1E_CLEAR_VF and otherwise not; this hardware has I_MASK_12 false and
FX1E_CLEAR_VF true. -/
def Obligations.AddToIndex : Prop :=
  Encodes 0xF0FF#16 0xF01E#16 (fun w => .addI (xOf w)) ∧
  (∀ (x : RegIx) (s : State), exec (.addI x) s = .next (s.addIndex false true x)) ∧
  ∀ (mask12 clearVf : Bool) (x : RegIx) (s : State),
    let t := s.addIndex mask12 clearVf x
    let sum := s.i.toNat + (s.getV x).toNat
    t = { s with i := t.i, v := t.v } ∧ t.i.toNat = (if mask12 then sum % 0x1000 else sum % 0x10000) ∧
    ∀ k, t.getV k =
      if k = 0xF#4 ∧ sum > 0xFFF then 0x01#8 else if k = 0xF#4 ∧ clearVf = true then 0x00#8 else s.getV k

/-- spec/43_index_memory.md R173 and decision D8 (derived): FX33 stores the hundreds, tens and units digits of VX at I, I + 1, I + 2 and
changes no other byte and nothing else; it raises DataOutOfRange, with nothing written, when I + 2 > 0xFFF. -/
def Obligations.DecimalStore : Prop :=
  Encodes 0xF0FF#16 0xF033#16 (fun w => .ldB (xOf w)) ∧
  ∀ (x : RegIx) (s : State),
    (s.i.toNat + 2 ≤ 0xFFF → ∃ t, exec (.ldB x) s = .next t ∧ t = { s with mem := t.mem } ∧
      ∀ a, t.mem.get a =
        if a = s.i.toNat then BitVec.ofNat 8 ((s.getV x).toNat / 100)
        else if a = s.i.toNat + 1 then BitVec.ofNat 8 ((s.getV x).toNat / 10 % 10)
        else if a = s.i.toNat + 2 then BitVec.ofNat 8 ((s.getV x).toNat % 10)
        else s.mem.get a) ∧
    (0xFFF < s.i.toNat + 2 → exec (.ldB x) s = .next (faultedState s .dataOutOfRange (some (max s.i.toNat 0x1000))))

/-- spec/43_index_memory.md R174 and decision D8 (derived): FX55 stores V0..VX at I..I + X and changes no other byte and nothing else, I
included; it raises DataOutOfRange, with nothing written, when I + X > 0xFFF. -/
def Obligations.StoreRegisters : Prop :=
  Encodes 0xF0FF#16 0xF055#16 (fun w => .storeRegs (xOf w)) ∧
  ∀ (x : RegIx) (s : State),
    (s.i.toNat + x.toNat ≤ 0xFFF → ∃ t, exec (.storeRegs x) s = .next t ∧ t = { s with mem := t.mem } ∧
      ∀ a, t.mem.get a =
        if s.i.toNat ≤ a ∧ a ≤ s.i.toNat + x.toNat then s.getV (BitVec.ofNat 4 (a - s.i.toNat)) else s.mem.get a) ∧
    (0xFFF < s.i.toNat + x.toNat →
      exec (.storeRegs x) s = .next (faultedState s .dataOutOfRange (some (max s.i.toNat 0x1000))))

/-- spec/43_index_memory.md R175 and decision D8 (derived): FX65 loads V0..VX from I..I + X and changes no register above VX and nothing
else, I included; it raises DataOutOfRange, with no register written, when I + X > 0xFFF. -/
def Obligations.LoadRegisters : Prop :=
  Encodes 0xF0FF#16 0xF065#16 (fun w => .loadRegs (xOf w)) ∧
  ∀ (x : RegIx) (s : State),
    (s.i.toNat + x.toNat ≤ 0xFFF → ∃ t, exec (.loadRegs x) s = .next t ∧
      VFile s t (fun k => if k.toNat ≤ x.toNat then s.mem.get (s.i.toNat + k.toNat) else s.getV k)) ∧
    (0xFFF < s.i.toNat + x.toNat →
      exec (.loadRegs x) s = .next (faultedState s .dataOutOfRange (some (max s.i.toNat 0x1000))))

/-- spec/43_index_memory.md R174, R175 (derived): registers stored by FX55 come back by FX65 through the same I, whatever the register
file holds in between. -/
def Obligations.StoredRegistersLoadBack : Prop :=
  ∀ (x : RegIx) (s t u w : State), s.i.toNat + x.toNat ≤ 0xFFF → exec (.storeRegs x) s = .next t →
    u = { t with v := u.v } → exec (.loadRegs x) u = .next w →
    ∀ k, w.getV k = if k.toNat ≤ x.toNat then s.getV k else u.getV k

/-- spec/20_memory.md R65, spec/70_reset_and_hazards.md R286 (derived; closeIteration, the end of an iteration, is the model's, log 3): a
byte that FX55 or FX33 has stored is what every later fetch of its address gets, with no fence. In any running state whose two bytes at PC
are still those the store left, a step decodes and runs the word of these bytes: the stored registers or digits where they were
stored, the bytes from before the store where they were not. -/
def Obligations.StoredWordIsFetched : Prop :=
  (∀ (x : RegIx) (s t u : State), s.i.toNat + x.toNat ≤ 0xFFF → exec (.storeRegs x) s = .next t →
    u.run = .running → u.pc.toNat + 1 ≤ 0xFFF →
    u.mem.get u.pc.toNat = t.mem.get u.pc.toNat → u.mem.get (u.pc.toNat + 1) = t.mem.get (u.pc.toNat + 1) →
    let byteAt : Nat → Byte := fun a =>
      if s.i.toNat ≤ a ∧ a ≤ s.i.toNat + x.toNat then s.getV (BitVec.ofNat 4 (a - s.i.toNat)) else s.mem.get a
    step u = closeIteration
      (exec (decode (byteAt u.pc.toNat ++ byteAt (u.pc.toNat + 1))) { advanced u with pc := u.pc + 2#16 })) ∧
  ∀ (x : RegIx) (s t u : State), s.i.toNat + 2 ≤ 0xFFF → exec (.ldB x) s = .next t →
    u.run = .running → u.pc.toNat + 1 ≤ 0xFFF →
    u.mem.get u.pc.toNat = t.mem.get u.pc.toNat → u.mem.get (u.pc.toNat + 1) = t.mem.get (u.pc.toNat + 1) →
    let byteAt : Nat → Byte := fun a =>
      if a = s.i.toNat then BitVec.ofNat 8 ((s.getV x).toNat / 100)
      else if a = s.i.toNat + 1 then BitVec.ofNat 8 ((s.getV x).toNat / 10 % 10)
      else if a = s.i.toNat + 2 then BitVec.ofNat 8 ((s.getV x).toNat % 10)
      else s.mem.get a
    step u = closeIteration
      (exec (decode (byteAt u.pc.toNat ++ byteAt (u.pc.toNat + 1))) { advanced u with pc := u.pc + 2#16 })

/-! ### The framebuffer -/

/-- spec/44_display.md R191, R197 (derived: the ignored X rests on decision D10, present on D19): 00E0 turns every pixel off and raises
present; nothing else changes, VF included. -/
def Obligations.ClearScreen : Prop :=
  Encodes 0xF0FF#16 0x00E0#16 (fun _ => .cls) ∧
  ∀ s : State, ∃ t, exec .cls s = .next t ∧ t = { s with fb := t.fb, present := true } ∧ ∀ x y, t.fb.pixel x y = false

/-- spec/44_display.md R192 to R197 and decisions D7, D8, D19 (derived): when its drawn rows lie in memory, DXYN XORs every pixel of the grid
with the sprite's bit over it, at (VX mod 64, VY mod 32), clipped, with the coordinates read before VF is written; VF is 1 exactly
when a pixel went from on to off, else 0; present is raised; nothing else changes. -/
def Obligations.DrawComposesSprite : Prop :=
  Encodes 0xF000#16 0xD000#16 (fun w => .drw (xOf w) (yOf w) (nOf w)) ∧
  ∀ (x y : RegIx) (n : Nibble) (s : State),
    let x0 := (s.getV x).toNat % 64
    let y0 := (s.getV y).toNat % 32
    let bit := spriteBit (rowBytes s n y0) x0 y0
    rowsInMemory s n y0 →
    ∃ t, exec (.drw x y n) s = .next t ∧ t = { s with fb := t.fb, v := t.v, present := true } ∧
      (∀ cx cy, t.fb.pixel cx cy = (s.fb.pixel cx cy ^^ bit cx cy)) ∧
      (∀ k, k ≠ 0xF#4 → t.getV k = s.getV k) ∧
      (t.getV 0xF#4 = 0x01#8 ∨ t.getV 0xF#4 = 0x00#8) ∧
      (t.getV 0xF#4 = 0x01#8 ↔ ∃ cx cy, bit cx cy = true ∧ s.fb.pixel cx cy = true)

/-- spec/44_display.md R192 and decision D8 (derived): when a row that DXYN would draw lies above 0xFFF it raises DataOutOfRange with
info max(I, 0x1000), and no pixel or register changes. -/
def Obligations.DrawOutOfRangeFaults : Prop :=
  ∀ (x y : RegIx) (n : Nibble) (s : State), ¬ rowsInMemory s n ((s.getV y).toNat % 32) →
    exec (.drw x y n) s = .next (faultedState s .dataOutOfRange (some (max s.i.toNat 0x1000)))

/-- spec/44_display.md R198 (derived): the same sprite drawn twice at the same position restores the framebuffer, and where the pixels
under its bits were off before and it has a bit on the grid, the second draw sets VF to 1. -/
def Obligations.DrawTwiceRestores : Prop :=
  ∀ (x y : RegIx) (n : Nibble) (s t u : State), exec (.drw x y n) s = .next t → t.present = true →
    (t.getV x).toNat % 64 = (s.getV x).toNat % 64 → (t.getV y).toNat % 32 = (s.getV y).toNat % 32 →
    exec (.drw x y n) t = .next u →
    u.fb = s.fb ∧
    let x0 := (s.getV x).toNat % 64
    let y0 := (s.getV y).toNat % 32
    let bit := spriteBit (rowBytes s n y0) x0 y0
    ((∀ cx cy, bit cx cy = true → s.fb.pixel cx cy = false) → (∃ cx cy, bit cx cy = true) → u.getV 0xF#4 = 0x01#8)

/-! ### Timers and keys -/

/-- spec/45_timers.md R213, R214, R215 and decision D13 (derived): FX07 reads the integer part of DT into VX; FX15 and FX18 set DT and ST
to VX with fraction 0; nothing else changes; so a value set and read back before any advance is the same. -/
def Obligations.TimerInstructions : Prop :=
  Encodes 0xF0FF#16 0xF007#16 (fun w => .ldVxDt (xOf w)) ∧
  Encodes 0xF0FF#16 0xF015#16 (fun w => .ldDtVx (xOf w)) ∧
  Encodes 0xF0FF#16 0xF018#16 (fun w => .ldStVx (xOf w)) ∧
  ∀ (x : RegIx) (s : State),
    (∃ t, exec (.ldVxDt x) s = .next t ∧ VFile s t (withReg s x (BitVec.ofNat 8 (s.dt / 2 ^ Config.timerFracBits)))) ∧
    (exec (.ldDtVx x) s = .next { s with dt := (s.getV x).toNat * 2 ^ Config.timerFracBits }) ∧
    (exec (.ldStVx x) s = .next { s with st := (s.getV x).toNat * 2 ^ Config.timerFracBits }) ∧
    ∀ (y : RegIx) (t u : State), exec (.ldDtVx x) s = .next t → exec (.ldVxDt y) t = .next u → u.getV y = s.getV x

/-- spec/45_timers.md R211 to R215 and decision D13 (derived): TIMER_FRAC_BITS is an argument `f` of the timer operations, and FX07, FX15
and FX18 are these operations at the value of this hardware. For every f: a timer set to VX and then advanced by the amounts `es`
loses their sum, never below 0, and FX07 reads its integer part. With f = 0, the fixed-rate timer of R212, it reads VX less the sum. -/
def Obligations.TimersUnderEveryFraction : Prop :=
  (∀ (x : RegIx) (s : State),
    exec (.ldVxDt x) s = .next (s.readDelay Config.timerFracBits x) ∧
    exec (.ldDtVx x) s = .next (s.setDelay Config.timerFracBits x) ∧
    exec (.ldStVx x) s = .next (s.setSound Config.timerFracBits x)) ∧
  (∀ (f : Nat) (x : RegIx) (s : State),
    VFile s (s.readDelay f x) (withReg s x (BitVec.ofNat 8 (s.dt / 2 ^ f))) ∧
    s.setDelay f x = { s with dt := (s.getV x).toNat * 2 ^ f } ∧
    s.setSound f x = { s with st := (s.getV x).toNat * 2 ^ f }) ∧
  (∀ (f : Nat) (x y : RegIx) (es : List Nat) (s : State),
    let t := es.foldl State.advanceTimers ((s.setDelay f x).setSound f x)
    t = { s with dt := (s.getV x).toNat * 2 ^ f - es.sum, st := (s.getV x).toNat * 2 ^ f - es.sum } ∧
    (t.readDelay f y).getV y = BitVec.ofNat 8 (((s.getV x).toNat * 2 ^ f - es.sum) / 2 ^ f)) ∧
  ∀ (x y : RegIx) (es : List Nat) (s : State),
    ((es.foldl State.advanceTimers (s.setDelay 0 x)).readDelay 0 y).getV y = BitVec.ofNat 8 ((s.getV x).toNat - es.sum)

/-- spec/46_input.md R232, R233, R236 and decisions D17, D21 (derived): EX9E skips when key VX is held and EXA1 when it is not, by the
snapshot of the iteration; nothing else changes; for VX > 0x0F both raise KeyOutOfRange. -/
def Obligations.SkipOnKey : Prop :=
  Encodes 0xF0FF#16 0xE09E#16 (fun w => .skp (xOf w)) ∧
  Encodes 0xF0FF#16 0xE0A1#16 (fun w => .sknp (xOf w)) ∧
  ∀ (x : RegIx) (s : State),
    ((s.getV x).toNat ≤ 0x0F →
      exec (.skp x) s = .next (skipTo s (s.input.keys.getLsbD (s.getV x).toNat = true)) ∧
      exec (.sknp x) s = .next (skipTo s (s.input.keys.getLsbD (s.getV x).toNat = false))) ∧
    (0x0F < (s.getV x).toNat →
      exec (.skp x) s = .next (faultedState s .keyOutOfRange (some (s.getV x).toNat)) ∧
      exec (.sknp x) s = .next (faultedState s .keyOutOfRange (some (s.getV x).toNat)))

/-- spec/46_input.md R234 and decision D16 (derived): FX0A with no completed key marks the held keys and rewinds PC by 2; with one it
puts the lowest completed key into VX, leaves PC, marks the held keys below it, clears its bit and leaves the bits above it; nothing
else changes. -/
def Obligations.WaitForKeyRelease : Prop :=
  Encodes 0xF0FF#16 0xF00A#16 (fun w => .ldVxK (xOf w)) ∧
  ∀ (x : RegIx) (s : State),
    ((∀ k, k < 16 → keyEdge s.input.keys s.shadow k = false) →
      exec (.ldVxK x) s = .next { s with shadow := s.shadow ||| s.input.keys, pc := s.pc - 2#16 }) ∧
    ∀ k, k < 16 → keyEdge s.input.keys s.shadow k = true → (∀ j, j < k → keyEdge s.input.keys s.shadow j = false) →
      ∃ t, exec (.ldVxK x) s = .next t ∧ t = { s with v := t.v, shadow := t.shadow } ∧
        (∀ r, t.getV r = if r = x then BitVec.ofNat 8 k else s.getV r) ∧
        ∀ j, j < 16 → t.shadow.getLsbD j =
          if j < k then (s.shadow.getLsbD j || s.input.keys.getLsbD j) else if j = k then false else s.shadow.getLsbD j

/-! ### Program load -/

/-- spec/70_reset_and_hazards.md R280, R281 and decisions D12, D14 (derived; the entries of the emptied stack stay, log 8; of the
model's own fields inputs and iter stay, log 11, and present is false, log 4): `load` of a program of at most 0xE00 bytes, for any
font: every byte of memory, every register, RUN = Running. -/
def Obligations.LoadPlacesProgram : Prop :=
  ∀ (s : State) (font : FontTable) (program : List Byte), program.length ≤ 0xE00 →
    let t := s.load font program
    (∀ a, a ≤ 0xFFF → t.mem.get a =
      if 0x200 ≤ a ∧ a < 0x200 + program.length then program.getD (a - 0x200) 0
      else if h : 0x050 ≤ a ∧ a - 0x050 < 80 then font[a - 0x050]'h.2 else 0x00#8) ∧
    (∀ k, t.getV k = 0x00#8) ∧ (∀ x y, t.fb.pixel x y = false) ∧ t.sp.val = 0 ∧
    t = { s with
      mem := t.mem, v := t.v, fb := t.fb, sp := t.sp, i := 0x0000#16, pc := 0x0200#16, dt := 0, st := 0,
      shadow := 0x0000#16, present := false, run := .running }

/-- spec/70_reset_and_hazards.md R281, R282 and decision D24 (derived; that no other register is written is the model's reading, log
11, that present is false log 4, and that the next call uses up its inputs the model's choice, log 3): `load` of a longer program
leaves the zero fill and the font in memory and RUN = Faulted(LoadOverflow, length), and the next iteration takes no step. -/
def Obligations.LoadOverflowStopsTheBlock : Prop :=
  ∀ (s : State) (font : FontTable) (program : List Byte), 0xE00 < program.length →
    let t := s.load font program
    (∀ a, a ≤ 0xFFF → t.mem.get a = if h : 0x050 ≤ a ∧ a - 0x050 < 80 then font[a - 0x050]'h.2 else 0x00#8) ∧
    t = { s with
      mem := t.mem, present := false, run := .faulted ⟨.loadOverflow, none, none, some program.length⟩ } ∧
    step t = .next (iterationDone t)
end

