-- ==== Sys2Proof/Laws/Memory.lean ====
section
/-! SUPPORT. What memory operations do: read after write, every other byte unchanged, and the canonical form kept
(spec/20_memory.md R58, R61; log 10). -/

namespace Sys2Proof.Machine

@[simp] theorem Memory.get_nil (a : Nat) : Memory.get [] a = resetByte a := rfl

theorem Memory.get_insert (addr : Nat) (b : Byte) (m : Memory) (a : Nat) :
    (Memory.insert addr b m).get a = if a = addr then b else m.get a := by
  induction m with
  | nil => simp [Memory.insert, Memory.get, eq_comm]
  | cons c m ih =>
    obtain ⟨k, v⟩ := c
    rcases lt_trichotomy addr k with h | h | h
    · simp only [Memory.insert, h, if_true, Memory.get, eq_comm (a := a)]
    · subst h
      simp only [Memory.insert, lt_irrefl, if_false, if_true, Memory.get, eq_comm (a := a)]
      split <;> rfl
    · have h1 : ¬ addr < k := by omega
      have h2 : ¬ addr = k := by omega
      simp only [Memory.insert, h1, h2, if_false, Memory.get, ih]
      by_cases ha : k = a
      · have : a ≠ addr := by omega
        simp [ha, this]
      · simp [ha]

theorem Memory.get_erase (addr : Nat) (m : Memory) (a : Nat) :
    (Memory.erase addr m).get a = if a = addr then resetByte addr else m.get a := by
  induction m with
  | nil => by_cases h : a = addr <;> simp [Memory.erase, h]
  | cons c m ih =>
    obtain ⟨k, v⟩ := c
    simp only [Memory.erase] at ih ⊢
    by_cases hk : k = addr
    · subst hk
      simp only [List.filter_cons, bne_self_eq_false, Bool.false_eq_true, if_false, ih, Memory.get]
      by_cases ha : a = k
      · simp [ha]
      · simp [ha, Ne.symm ha]
    · have : (k != addr) = true := by simpa using hk
      simp only [List.filter_cons, this, if_true, Memory.get, ih]
      by_cases ha : k = a
      · have : a ≠ addr := by omega
        simp [ha, this]
      · simp [ha]

/-- A byte written is the byte read back, and every other byte is unchanged (R58). -/
theorem Memory.get_set (m : Memory) (addr : Nat) (b : Byte) (h : addr < Config.memSize) (a : Nat) :
    (m.set addr b).get a = if a = addr then b else m.get a := by
  unfold Memory.set
  rw [if_pos h]
  split
  · next hb => rw [Memory.get_erase, hb]
  · exact Memory.get_insert addr b m a

/-- An address outside memory has no byte to write (R55). -/
theorem Memory.set_outside (m : Memory) (addr : Nat) (b : Byte) (h : ¬ addr < Config.memSize) : m.set addr b = m := by
  simp [Memory.set, h]

/-- A write leaves every other byte unchanged, whatever its address. -/
theorem Memory.get_set_other (m : Memory) (addr : Nat) (b : Byte) (a : Nat) (ha : a ≠ addr) :
    (m.set addr b).get a = m.get a := by
  by_cases h : addr < Config.memSize
  · simp [Memory.get_set m addr b h, ha]
  · rw [Memory.set_outside m addr b h]

/-- What a span write leaves at every address: the byte of the span inside it, the old byte outside it (R61). -/
theorem Memory.get_setBytes (bs : List Byte) : ∀ (m : Memory) (addr : Nat), addr + bs.length ≤ Config.memSize → ∀ a,
    (m.setBytes addr bs).get a = if addr ≤ a ∧ a < addr + bs.length then bs.getD (a - addr) 0 else m.get a := by
  induction bs with
  | nil =>
    intro m addr _ a
    have : ¬ (addr ≤ a ∧ a < addr) := by omega
    simp [Memory.setBytes, this]
  | cons b bs ih =>
    intro m addr h a
    simp only [List.length_cons] at h
    rw [Memory.setBytes, ih _ _ (by omega), Memory.get_set m addr b (by omega)]
    by_cases h0 : a = addr
    · subst h0
      have : ¬ (a + 1 ≤ a ∧ a < a + 1 + bs.length) := by omega
      simp
    · by_cases h1 : addr + 1 ≤ a ∧ a < addr + 1 + bs.length
      · have h2 : addr ≤ a ∧ a < addr + (b :: bs).length := by simp only [List.length_cons]; omega
        rw [if_pos h1, if_pos h2]
        have : a - addr = (a - (addr + 1)) + 1 := by omega
        simp [this]
      · have h2 : ¬ (addr ≤ a ∧ a < addr + (b :: bs).length) := by simp only [List.length_cons]; omega
        rw [if_neg h1, if_neg h2, if_neg h0]

/-- A span read gives the bytes of its addresses in ascending order (R61). -/
theorem Memory.getBytes_length (m : Memory) (n : Nat) : ∀ addr, (m.getBytes addr n).length = n := by
  induction n with
  | zero => intro; rfl
  | succ n ih => intro addr; simp [Memory.getBytes, ih]

/-- Byte `k` of a span read is the byte at its address. -/
theorem Memory.getBytes_getD (m : Memory) (n : Nat) : ∀ addr k, k < n →
    (m.getBytes addr n).getD k 0 = m.get (addr + k) := by
  induction n with
  | zero => intro _ _ h; omega
  | succ n ih =>
    intro addr k h
    cases k with
    | zero => simp [Memory.getBytes]
    | succ k =>
      have := ih (addr + 1) k (by omega)
      simp only [Memory.getBytes, List.getD_cons_succ, this]
      congr 1; omega

/-! ### The canonical form -/

theorem Memory.mem_insert {addr : Nat} {b : Byte} {m : Memory} {c : Host.Cell} (h : c ∈ Memory.insert addr b m) :
    c = (addr, b) ∨ c ∈ m := by
  induction m with
  | nil => simpa [Memory.insert] using h
  | cons d m ih =>
    obtain ⟨k, v⟩ := d
    unfold Memory.insert at h
    split at h
    · simpa using h
    · split at h
      · rcases List.mem_cons.mp h with h | h
        · exact .inl h
        · exact .inr (List.mem_cons_of_mem _ h)
      · rcases List.mem_cons.mp h with h | h
        · exact .inr (h ▸ List.mem_cons_self)
        · exact (ih h).imp id (List.mem_cons_of_mem _)

theorem Memory.sorted_insert (addr : Nat) (b : Byte) {m : Memory} (h : m.Pairwise (fun x y => x.1 < y.1)) :
    (Memory.insert addr b m).Pairwise (fun x y => x.1 < y.1) := by
  induction m with
  | nil => simp [Memory.insert]
  | cons d m ih =>
    obtain ⟨k, v⟩ := d
    have hk := (List.pairwise_cons.mp h).1
    have hm := (List.pairwise_cons.mp h).2
    unfold Memory.insert
    split
    · next hlt =>
      refine List.pairwise_cons.mpr ⟨?_, h⟩
      intro c hc
      rcases List.mem_cons.mp hc with rfl | hc
      · exact hlt
      · exact lt_trans hlt (hk c hc)
    · split
      · next heq =>
        subst heq
        exact List.pairwise_cons.mpr ⟨fun c hc => hk c hc, hm⟩
      · next h1 h2 =>
        refine List.pairwise_cons.mpr ⟨?_, ih hm⟩
        intro c hc
        rcases Memory.mem_insert hc with rfl | hc
        · show k < addr
          omega
        · exact hk c hc

/-- A byte write keeps the canonical form. -/
theorem Memory.wf_set (m : Memory) (addr : Nat) (b : Byte) (h : m.wf) : (m.set addr b).wf := by
  unfold Memory.set
  split
  · next ha =>
    split
    · exact ⟨h.1.filter _, fun c hc => h.2 c (List.mem_filter.mp hc).1⟩
    · next hb =>
      refine ⟨Memory.sorted_insert addr b h.1, fun c hc => ?_⟩
      rcases Memory.mem_insert hc with rfl | hc
      · exact ⟨ha, hb⟩
      · exact h.2 c hc
  · exact h

/-- A span write keeps the canonical form. -/
theorem Memory.wf_setBytes (bs : List Byte) : ∀ (m : Memory) (addr : Nat), m.wf → (m.setBytes addr bs).wf := by
  induction bs with
  | nil => intro m _ h; exact h
  | cons b bs ih => intro m addr h; exact ih _ _ (Memory.wf_set m addr b h)

/-- Memory after reset, with nothing listed, is in canonical form. -/
theorem Memory.wf_nil : Memory.wf [] := ⟨.nil, fun _ h => by cases h⟩

/-- Memory after `initialize` and `loadFont` is in canonical form (spec/70_reset_and_hazards.md R280). -/
theorem fontMemory_wf (font : FontTable) : (fontMemory font).wf := Memory.wf_setBytes _ _ _ Memory.wf_nil

/-- Two memories in canonical form that read the same everywhere are the same list. -/
theorem Memory.wf_ext : ∀ (m₁ m₂ : Memory), m₁.wf → m₂.wf → (∀ a, m₁.get a = m₂.get a) → m₁ = m₂ := by
  have below : ∀ (m : Memory) (a : Nat), (∀ c ∈ m, a < c.1) → m.get a = resetByte a := by
    intro m a
    induction m with
    | nil => intro _; rfl
    | cons c m ih =>
      intro h
      have hc : a < c.1 := h c List.mem_cons_self
      obtain ⟨k, v⟩ := c
      rw [Memory.get, if_neg (by simp only at hc; omega)]
      exact ih fun d hd => h d (List.mem_cons_of_mem _ hd)
  have tail : ∀ {c : Host.Cell} {m : Memory}, Memory.wf (c :: m) → Memory.wf m := fun h =>
    ⟨(List.pairwise_cons.mp h.1).2, fun d hd => h.2 d (List.mem_cons_of_mem _ hd)⟩
  have head : ∀ {k : Nat} {v : Byte} {m : Memory}, Memory.get ((k, v) :: m) k = v := by
    intro k v m; simp [Memory.get]
  intro m₁
  induction m₁ with
  | nil =>
    intro m₂ _ h₂ h
    cases m₂ with
    | nil => rfl
    | cons c m =>
      obtain ⟨k, v⟩ := c
      have := h k
      rw [head] at this
      exact absurd this.symm (h₂.2 _ List.mem_cons_self).2
  | cons c₁ m₁ ih =>
    intro m₂ h₁ h₂ h
    obtain ⟨k₁, v₁⟩ := c₁
    have above₁ := (List.pairwise_cons.mp h₁.1).1
    cases m₂ with
    | nil =>
      have := h k₁
      rw [head] at this
      exact absurd this (h₁.2 _ List.mem_cons_self).2
    | cons c₂ m₂ =>
      obtain ⟨k₂, v₂⟩ := c₂
      have above₂ := (List.pairwise_cons.mp h₂.1).1
      rcases lt_trichotomy k₁ k₂ with hk | hk | hk
      · have e := h k₁
        rw [head, below _ k₁ (by
          intro c hc
          rcases List.mem_cons.mp hc with rfl | hc
          · exact hk
          · exact lt_trans hk (above₂ c hc))] at e
        exact absurd e (h₁.2 _ List.mem_cons_self).2
      · subst hk
        have e := h k₁
        rw [head, head] at e
        subst e
        congr 1
        refine ih m₂ (tail h₁) (tail h₂) fun a => ?_
        have e := h a
        by_cases ha : k₁ = a
        · subst ha
          rw [below m₁ k₁ above₁, below m₂ k₁ above₂]
        · simpa [Memory.get, ha] using e
      · have e := h k₂
        rw [head, below _ k₂ (by
          intro c hc
          rcases List.mem_cons.mp hc with rfl | hc
          · exact hk
          · exact lt_trans hk (above₁ c hc))] at e
        exact absurd e.symm (h₂.2 _ List.mem_cons_self).2

end Sys2Proof.Machine
end

