-- ==== Sys2Proof/Laws/State.lean ====
section
/-! SUPPORT. The small lemmas of the state: for every field and every update of one field, what the field holds after it. -/

namespace Sys2Proof.Machine

/-! ### setV -/

@[simp] theorem State.setV_v (s : State) (x : RegIx) (b : Byte) : (s.setV x b).v = s.v.set x.toNat b x.isLt := rfl
@[simp] theorem State.setV_i (s : State) (x : RegIx) (b : Byte) : (s.setV x b).i = s.i := rfl
@[simp] theorem State.setV_pc (s : State) (x : RegIx) (b : Byte) : (s.setV x b).pc = s.pc := rfl
@[simp] theorem State.setV_stack (s : State) (x : RegIx) (b : Byte) : (s.setV x b).stack = s.stack := rfl
@[simp] theorem State.setV_sp (s : State) (x : RegIx) (b : Byte) : (s.setV x b).sp = s.sp := rfl
@[simp] theorem State.setV_dt (s : State) (x : RegIx) (b : Byte) : (s.setV x b).dt = s.dt := rfl
@[simp] theorem State.setV_st (s : State) (x : RegIx) (b : Byte) : (s.setV x b).st = s.st := rfl
@[simp] theorem State.setV_fb (s : State) (x : RegIx) (b : Byte) : (s.setV x b).fb = s.fb := rfl
@[simp] theorem State.setV_shadow (s : State) (x : RegIx) (b : Byte) : (s.setV x b).shadow = s.shadow := rfl
@[simp] theorem State.setV_run (s : State) (x : RegIx) (b : Byte) : (s.setV x b).run = s.run := rfl
@[simp] theorem State.setV_mem (s : State) (x : RegIx) (b : Byte) : (s.setV x b).mem = s.mem := rfl
@[simp] theorem State.setV_inputs (s : State) (x : RegIx) (b : Byte) : (s.setV x b).inputs = s.inputs := rfl
@[simp] theorem State.setV_iter (s : State) (x : RegIx) (b : Byte) : (s.setV x b).iter = s.iter := rfl
@[simp] theorem State.setV_present (s : State) (x : RegIx) (b : Byte) : (s.setV x b).present = s.present := rfl

/-! ### setI -/

@[simp] theorem State.setI_v (s : State) (w : Word) : (s.setI w).v = s.v := rfl
@[simp] theorem State.setI_i (s : State) (w : Word) : (s.setI w).i = w := rfl
@[simp] theorem State.setI_pc (s : State) (w : Word) : (s.setI w).pc = s.pc := rfl
@[simp] theorem State.setI_stack (s : State) (w : Word) : (s.setI w).stack = s.stack := rfl
@[simp] theorem State.setI_sp (s : State) (w : Word) : (s.setI w).sp = s.sp := rfl
@[simp] theorem State.setI_dt (s : State) (w : Word) : (s.setI w).dt = s.dt := rfl
@[simp] theorem State.setI_st (s : State) (w : Word) : (s.setI w).st = s.st := rfl
@[simp] theorem State.setI_fb (s : State) (w : Word) : (s.setI w).fb = s.fb := rfl
@[simp] theorem State.setI_shadow (s : State) (w : Word) : (s.setI w).shadow = s.shadow := rfl
@[simp] theorem State.setI_run (s : State) (w : Word) : (s.setI w).run = s.run := rfl
@[simp] theorem State.setI_mem (s : State) (w : Word) : (s.setI w).mem = s.mem := rfl
@[simp] theorem State.setI_inputs (s : State) (w : Word) : (s.setI w).inputs = s.inputs := rfl
@[simp] theorem State.setI_iter (s : State) (w : Word) : (s.setI w).iter = s.iter := rfl
@[simp] theorem State.setI_present (s : State) (w : Word) : (s.setI w).present = s.present := rfl
@[simp] theorem State.setI_getV (s : State) (w : Word) (k : RegIx) : (s.setI w).getV k = s.getV k := rfl

/-! ### setPc -/

@[simp] theorem State.setPc_v (s : State) (w : Word) : (s.setPc w).v = s.v := rfl
@[simp] theorem State.setPc_i (s : State) (w : Word) : (s.setPc w).i = s.i := rfl
@[simp] theorem State.setPc_pc (s : State) (w : Word) : (s.setPc w).pc = w := rfl
@[simp] theorem State.setPc_stack (s : State) (w : Word) : (s.setPc w).stack = s.stack := rfl
@[simp] theorem State.setPc_sp (s : State) (w : Word) : (s.setPc w).sp = s.sp := rfl
@[simp] theorem State.setPc_dt (s : State) (w : Word) : (s.setPc w).dt = s.dt := rfl
@[simp] theorem State.setPc_st (s : State) (w : Word) : (s.setPc w).st = s.st := rfl
@[simp] theorem State.setPc_fb (s : State) (w : Word) : (s.setPc w).fb = s.fb := rfl
@[simp] theorem State.setPc_shadow (s : State) (w : Word) : (s.setPc w).shadow = s.shadow := rfl
@[simp] theorem State.setPc_run (s : State) (w : Word) : (s.setPc w).run = s.run := rfl
@[simp] theorem State.setPc_mem (s : State) (w : Word) : (s.setPc w).mem = s.mem := rfl
@[simp] theorem State.setPc_inputs (s : State) (w : Word) : (s.setPc w).inputs = s.inputs := rfl
@[simp] theorem State.setPc_iter (s : State) (w : Word) : (s.setPc w).iter = s.iter := rfl
@[simp] theorem State.setPc_present (s : State) (w : Word) : (s.setPc w).present = s.present := rfl
@[simp] theorem State.setPc_getV (s : State) (w : Word) (k : RegIx) : (s.setPc w).getV k = s.getV k := rfl

/-! ### setDt -/

@[simp] theorem State.setDt_v (s : State) (n : Nat) : (s.setDt n).v = s.v := rfl
@[simp] theorem State.setDt_i (s : State) (n : Nat) : (s.setDt n).i = s.i := rfl
@[simp] theorem State.setDt_pc (s : State) (n : Nat) : (s.setDt n).pc = s.pc := rfl
@[simp] theorem State.setDt_stack (s : State) (n : Nat) : (s.setDt n).stack = s.stack := rfl
@[simp] theorem State.setDt_sp (s : State) (n : Nat) : (s.setDt n).sp = s.sp := rfl
@[simp] theorem State.setDt_dt (s : State) (n : Nat) : (s.setDt n).dt = n := rfl
@[simp] theorem State.setDt_st (s : State) (n : Nat) : (s.setDt n).st = s.st := rfl
@[simp] theorem State.setDt_fb (s : State) (n : Nat) : (s.setDt n).fb = s.fb := rfl
@[simp] theorem State.setDt_shadow (s : State) (n : Nat) : (s.setDt n).shadow = s.shadow := rfl
@[simp] theorem State.setDt_run (s : State) (n : Nat) : (s.setDt n).run = s.run := rfl
@[simp] theorem State.setDt_mem (s : State) (n : Nat) : (s.setDt n).mem = s.mem := rfl
@[simp] theorem State.setDt_inputs (s : State) (n : Nat) : (s.setDt n).inputs = s.inputs := rfl
@[simp] theorem State.setDt_iter (s : State) (n : Nat) : (s.setDt n).iter = s.iter := rfl
@[simp] theorem State.setDt_present (s : State) (n : Nat) : (s.setDt n).present = s.present := rfl
@[simp] theorem State.setDt_getV (s : State) (n : Nat) (k : RegIx) : (s.setDt n).getV k = s.getV k := rfl

/-! ### setSt -/

@[simp] theorem State.setSt_v (s : State) (n : Nat) : (s.setSt n).v = s.v := rfl
@[simp] theorem State.setSt_i (s : State) (n : Nat) : (s.setSt n).i = s.i := rfl
@[simp] theorem State.setSt_pc (s : State) (n : Nat) : (s.setSt n).pc = s.pc := rfl
@[simp] theorem State.setSt_stack (s : State) (n : Nat) : (s.setSt n).stack = s.stack := rfl
@[simp] theorem State.setSt_sp (s : State) (n : Nat) : (s.setSt n).sp = s.sp := rfl
@[simp] theorem State.setSt_dt (s : State) (n : Nat) : (s.setSt n).dt = s.dt := rfl
@[simp] theorem State.setSt_st (s : State) (n : Nat) : (s.setSt n).st = n := rfl
@[simp] theorem State.setSt_fb (s : State) (n : Nat) : (s.setSt n).fb = s.fb := rfl
@[simp] theorem State.setSt_shadow (s : State) (n : Nat) : (s.setSt n).shadow = s.shadow := rfl
@[simp] theorem State.setSt_run (s : State) (n : Nat) : (s.setSt n).run = s.run := rfl
@[simp] theorem State.setSt_mem (s : State) (n : Nat) : (s.setSt n).mem = s.mem := rfl
@[simp] theorem State.setSt_inputs (s : State) (n : Nat) : (s.setSt n).inputs = s.inputs := rfl
@[simp] theorem State.setSt_iter (s : State) (n : Nat) : (s.setSt n).iter = s.iter := rfl
@[simp] theorem State.setSt_present (s : State) (n : Nat) : (s.setSt n).present = s.present := rfl
@[simp] theorem State.setSt_getV (s : State) (n : Nat) (k : RegIx) : (s.setSt n).getV k = s.getV k := rfl

/-! ### setFb -/

@[simp] theorem State.setFb_v (s : State) (f : Framebuffer) : (s.setFb f).v = s.v := rfl
@[simp] theorem State.setFb_i (s : State) (f : Framebuffer) : (s.setFb f).i = s.i := rfl
@[simp] theorem State.setFb_pc (s : State) (f : Framebuffer) : (s.setFb f).pc = s.pc := rfl
@[simp] theorem State.setFb_stack (s : State) (f : Framebuffer) : (s.setFb f).stack = s.stack := rfl
@[simp] theorem State.setFb_sp (s : State) (f : Framebuffer) : (s.setFb f).sp = s.sp := rfl
@[simp] theorem State.setFb_dt (s : State) (f : Framebuffer) : (s.setFb f).dt = s.dt := rfl
@[simp] theorem State.setFb_st (s : State) (f : Framebuffer) : (s.setFb f).st = s.st := rfl
@[simp] theorem State.setFb_fb (s : State) (f : Framebuffer) : (s.setFb f).fb = f := rfl
@[simp] theorem State.setFb_shadow (s : State) (f : Framebuffer) : (s.setFb f).shadow = s.shadow := rfl
@[simp] theorem State.setFb_run (s : State) (f : Framebuffer) : (s.setFb f).run = s.run := rfl
@[simp] theorem State.setFb_mem (s : State) (f : Framebuffer) : (s.setFb f).mem = s.mem := rfl
@[simp] theorem State.setFb_inputs (s : State) (f : Framebuffer) : (s.setFb f).inputs = s.inputs := rfl
@[simp] theorem State.setFb_iter (s : State) (f : Framebuffer) : (s.setFb f).iter = s.iter := rfl
@[simp] theorem State.setFb_present (s : State) (f : Framebuffer) : (s.setFb f).present = s.present := rfl
@[simp] theorem State.setFb_getV (s : State) (f : Framebuffer) (k : RegIx) : (s.setFb f).getV k = s.getV k := rfl

/-! ### setShadow -/

@[simp] theorem State.setShadow_v (s : State) (w : BitVec 16) : (s.setShadow w).v = s.v := rfl
@[simp] theorem State.setShadow_i (s : State) (w : BitVec 16) : (s.setShadow w).i = s.i := rfl
@[simp] theorem State.setShadow_pc (s : State) (w : BitVec 16) : (s.setShadow w).pc = s.pc := rfl
@[simp] theorem State.setShadow_stack (s : State) (w : BitVec 16) : (s.setShadow w).stack = s.stack := rfl
@[simp] theorem State.setShadow_sp (s : State) (w : BitVec 16) : (s.setShadow w).sp = s.sp := rfl
@[simp] theorem State.setShadow_dt (s : State) (w : BitVec 16) : (s.setShadow w).dt = s.dt := rfl
@[simp] theorem State.setShadow_st (s : State) (w : BitVec 16) : (s.setShadow w).st = s.st := rfl
@[simp] theorem State.setShadow_fb (s : State) (w : BitVec 16) : (s.setShadow w).fb = s.fb := rfl
@[simp] theorem State.setShadow_shadow (s : State) (w : BitVec 16) : (s.setShadow w).shadow = w := rfl
@[simp] theorem State.setShadow_run (s : State) (w : BitVec 16) : (s.setShadow w).run = s.run := rfl
@[simp] theorem State.setShadow_mem (s : State) (w : BitVec 16) : (s.setShadow w).mem = s.mem := rfl
@[simp] theorem State.setShadow_inputs (s : State) (w : BitVec 16) : (s.setShadow w).inputs = s.inputs := rfl
@[simp] theorem State.setShadow_iter (s : State) (w : BitVec 16) : (s.setShadow w).iter = s.iter := rfl
@[simp] theorem State.setShadow_present (s : State) (w : BitVec 16) : (s.setShadow w).present = s.present := rfl
@[simp] theorem State.setShadow_getV (s : State) (w : BitVec 16) (k : RegIx) : (s.setShadow w).getV k = s.getV k := rfl

/-! ### setMem -/

@[simp] theorem State.setMem_v (s : State) (m : Memory) : (s.setMem m).v = s.v := rfl
@[simp] theorem State.setMem_i (s : State) (m : Memory) : (s.setMem m).i = s.i := rfl
@[simp] theorem State.setMem_pc (s : State) (m : Memory) : (s.setMem m).pc = s.pc := rfl
@[simp] theorem State.setMem_stack (s : State) (m : Memory) : (s.setMem m).stack = s.stack := rfl
@[simp] theorem State.setMem_sp (s : State) (m : Memory) : (s.setMem m).sp = s.sp := rfl
@[simp] theorem State.setMem_dt (s : State) (m : Memory) : (s.setMem m).dt = s.dt := rfl
@[simp] theorem State.setMem_st (s : State) (m : Memory) : (s.setMem m).st = s.st := rfl
@[simp] theorem State.setMem_fb (s : State) (m : Memory) : (s.setMem m).fb = s.fb := rfl
@[simp] theorem State.setMem_shadow (s : State) (m : Memory) : (s.setMem m).shadow = s.shadow := rfl
@[simp] theorem State.setMem_run (s : State) (m : Memory) : (s.setMem m).run = s.run := rfl
@[simp] theorem State.setMem_mem (s : State) (m : Memory) : (s.setMem m).mem = m := rfl
@[simp] theorem State.setMem_inputs (s : State) (m : Memory) : (s.setMem m).inputs = s.inputs := rfl
@[simp] theorem State.setMem_iter (s : State) (m : Memory) : (s.setMem m).iter = s.iter := rfl
@[simp] theorem State.setMem_present (s : State) (m : Memory) : (s.setMem m).present = s.present := rfl
@[simp] theorem State.setMem_getV (s : State) (m : Memory) (k : RegIx) : (s.setMem m).getV k = s.getV k := rfl

/-! ### setPresent -/

@[simp] theorem State.setPresent_v (s : State) (b : Bool) : (s.setPresent b).v = s.v := rfl
@[simp] theorem State.setPresent_i (s : State) (b : Bool) : (s.setPresent b).i = s.i := rfl
@[simp] theorem State.setPresent_pc (s : State) (b : Bool) : (s.setPresent b).pc = s.pc := rfl
@[simp] theorem State.setPresent_stack (s : State) (b : Bool) : (s.setPresent b).stack = s.stack := rfl
@[simp] theorem State.setPresent_sp (s : State) (b : Bool) : (s.setPresent b).sp = s.sp := rfl
@[simp] theorem State.setPresent_dt (s : State) (b : Bool) : (s.setPresent b).dt = s.dt := rfl
@[simp] theorem State.setPresent_st (s : State) (b : Bool) : (s.setPresent b).st = s.st := rfl
@[simp] theorem State.setPresent_fb (s : State) (b : Bool) : (s.setPresent b).fb = s.fb := rfl
@[simp] theorem State.setPresent_shadow (s : State) (b : Bool) : (s.setPresent b).shadow = s.shadow := rfl
@[simp] theorem State.setPresent_run (s : State) (b : Bool) : (s.setPresent b).run = s.run := rfl
@[simp] theorem State.setPresent_mem (s : State) (b : Bool) : (s.setPresent b).mem = s.mem := rfl
@[simp] theorem State.setPresent_inputs (s : State) (b : Bool) : (s.setPresent b).inputs = s.inputs := rfl
@[simp] theorem State.setPresent_iter (s : State) (b : Bool) : (s.setPresent b).iter = s.iter := rfl
@[simp] theorem State.setPresent_present (s : State) (b : Bool) : (s.setPresent b).present = b := rfl
@[simp] theorem State.setPresent_getV (s : State) (b : Bool) (k : RegIx) : (s.setPresent b).getV k = s.getV k := rfl

/-! ### setVThenFlag -/

@[simp] theorem State.setVThenFlag_i (s : State) (x : RegIx) (b c : Byte) : (s.setVThenFlag x b c).i = s.i := rfl
@[simp] theorem State.setVThenFlag_pc (s : State) (x : RegIx) (b c : Byte) : (s.setVThenFlag x b c).pc = s.pc := rfl
@[simp] theorem State.setVThenFlag_stack (s : State) (x : RegIx) (b c : Byte) : (s.setVThenFlag x b c).stack = s.stack := rfl
@[simp] theorem State.setVThenFlag_sp (s : State) (x : RegIx) (b c : Byte) : (s.setVThenFlag x b c).sp = s.sp := rfl
@[simp] theorem State.setVThenFlag_dt (s : State) (x : RegIx) (b c : Byte) : (s.setVThenFlag x b c).dt = s.dt := rfl
@[simp] theorem State.setVThenFlag_st (s : State) (x : RegIx) (b c : Byte) : (s.setVThenFlag x b c).st = s.st := rfl
@[simp] theorem State.setVThenFlag_fb (s : State) (x : RegIx) (b c : Byte) : (s.setVThenFlag x b c).fb = s.fb := rfl
@[simp] theorem State.setVThenFlag_shadow (s : State) (x : RegIx) (b c : Byte) : (s.setVThenFlag x b c).shadow = s.shadow := rfl
@[simp] theorem State.setVThenFlag_run (s : State) (x : RegIx) (b c : Byte) : (s.setVThenFlag x b c).run = s.run := rfl
@[simp] theorem State.setVThenFlag_mem (s : State) (x : RegIx) (b c : Byte) : (s.setVThenFlag x b c).mem = s.mem := rfl
@[simp] theorem State.setVThenFlag_inputs (s : State) (x : RegIx) (b c : Byte) : (s.setVThenFlag x b c).inputs = s.inputs := rfl
@[simp] theorem State.setVThenFlag_iter (s : State) (x : RegIx) (b c : Byte) : (s.setVThenFlag x b c).iter = s.iter := rfl
@[simp] theorem State.setVThenFlag_present (s : State) (x : RegIx) (b c : Byte) : (s.setVThenFlag x b c).present = s.present := rfl

/-! ### takeFault and raise -/

@[simp] theorem State.takeFault_v (s : State) (cause : Fault) (a : Word) (word : Option Word) (info : Option Nat) :
    (s.takeFault cause a word info).v = s.v := rfl
@[simp] theorem State.takeFault_i (s : State) (cause : Fault) (a : Word) (word : Option Word) (info : Option Nat) :
    (s.takeFault cause a word info).i = s.i := rfl
@[simp] theorem State.takeFault_pc (s : State) (cause : Fault) (a : Word) (word : Option Word) (info : Option Nat) :
    (s.takeFault cause a word info).pc = a := rfl
@[simp] theorem State.takeFault_stack (s : State) (cause : Fault) (a : Word) (word : Option Word) (info : Option Nat) :
    (s.takeFault cause a word info).stack = s.stack := rfl
@[simp] theorem State.takeFault_sp (s : State) (cause : Fault) (a : Word) (word : Option Word) (info : Option Nat) :
    (s.takeFault cause a word info).sp = s.sp := rfl
@[simp] theorem State.takeFault_dt (s : State) (cause : Fault) (a : Word) (word : Option Word) (info : Option Nat) :
    (s.takeFault cause a word info).dt = s.dt := rfl
@[simp] theorem State.takeFault_st (s : State) (cause : Fault) (a : Word) (word : Option Word) (info : Option Nat) :
    (s.takeFault cause a word info).st = s.st := rfl
@[simp] theorem State.takeFault_fb (s : State) (cause : Fault) (a : Word) (word : Option Word) (info : Option Nat) :
    (s.takeFault cause a word info).fb = s.fb := rfl
@[simp] theorem State.takeFault_shadow (s : State) (cause : Fault) (a : Word) (word : Option Word) (info : Option Nat) :
    (s.takeFault cause a word info).shadow = s.shadow := rfl
@[simp] theorem State.takeFault_run (s : State) (cause : Fault) (a : Word) (word : Option Word) (info : Option Nat) :
    (s.takeFault cause a word info).run = .faulted ⟨cause, some a, word, info⟩ := rfl
@[simp] theorem State.takeFault_mem (s : State) (cause : Fault) (a : Word) (word : Option Word) (info : Option Nat) :
    (s.takeFault cause a word info).mem = s.mem := rfl
@[simp] theorem State.takeFault_inputs (s : State) (cause : Fault) (a : Word) (word : Option Word) (info : Option Nat) :
    (s.takeFault cause a word info).inputs = s.inputs := rfl
@[simp] theorem State.takeFault_iter (s : State) (cause : Fault) (a : Word) (word : Option Word) (info : Option Nat) :
    (s.takeFault cause a word info).iter = s.iter := rfl
@[simp] theorem State.takeFault_present (s : State) (cause : Fault) (a : Word) (word : Option Word) (info : Option Nat) :
    (s.takeFault cause a word info).present = false := rfl
@[simp] theorem State.raise_v (s : State) (cause : Fault) (info : Option Nat) :
    (s.raise cause info).v = s.v := rfl
@[simp] theorem State.raise_i (s : State) (cause : Fault) (info : Option Nat) :
    (s.raise cause info).i = s.i := rfl
@[simp] theorem State.raise_pc (s : State) (cause : Fault) (info : Option Nat) :
    (s.raise cause info).pc = s.curAddr := rfl
@[simp] theorem State.raise_stack (s : State) (cause : Fault) (info : Option Nat) :
    (s.raise cause info).stack = s.stack := rfl
@[simp] theorem State.raise_sp (s : State) (cause : Fault) (info : Option Nat) :
    (s.raise cause info).sp = s.sp := rfl
@[simp] theorem State.raise_dt (s : State) (cause : Fault) (info : Option Nat) :
    (s.raise cause info).dt = s.dt := rfl
@[simp] theorem State.raise_st (s : State) (cause : Fault) (info : Option Nat) :
    (s.raise cause info).st = s.st := rfl
@[simp] theorem State.raise_fb (s : State) (cause : Fault) (info : Option Nat) :
    (s.raise cause info).fb = s.fb := rfl
@[simp] theorem State.raise_shadow (s : State) (cause : Fault) (info : Option Nat) :
    (s.raise cause info).shadow = s.shadow := rfl
@[simp] theorem State.raise_run (s : State) (cause : Fault) (info : Option Nat) :
    (s.raise cause info).run = .faulted ⟨cause, some s.curAddr, s.curWord, info⟩ := rfl
@[simp] theorem State.raise_mem (s : State) (cause : Fault) (info : Option Nat) :
    (s.raise cause info).mem = s.mem := rfl
@[simp] theorem State.raise_inputs (s : State) (cause : Fault) (info : Option Nat) :
    (s.raise cause info).inputs = s.inputs := rfl
@[simp] theorem State.raise_iter (s : State) (cause : Fault) (info : Option Nat) :
    (s.raise cause info).iter = s.iter := rfl
@[simp] theorem State.raise_present (s : State) (cause : Fault) (info : Option Nat) :
    (s.raise cause info).present = false := rfl

/-! ### The ends of an iteration -/

@[simp] theorem State.beginIteration_v (s : State) : s.beginIteration.v = s.v := rfl
@[simp] theorem State.beginIteration_i (s : State) : s.beginIteration.i = s.i := rfl
@[simp] theorem State.beginIteration_pc (s : State) : s.beginIteration.pc = s.pc := rfl
@[simp] theorem State.beginIteration_stack (s : State) : s.beginIteration.stack = s.stack := rfl
@[simp] theorem State.beginIteration_sp (s : State) : s.beginIteration.sp = s.sp := rfl
@[simp] theorem State.beginIteration_dt (s : State) : s.beginIteration.dt = countDown s.dt s.input.elapsed := rfl
@[simp] theorem State.beginIteration_st (s : State) : s.beginIteration.st = countDown s.st s.input.elapsed := rfl
@[simp] theorem State.beginIteration_fb (s : State) : s.beginIteration.fb = s.fb := rfl
@[simp] theorem State.beginIteration_shadow (s : State) : s.beginIteration.shadow = s.shadow := rfl
@[simp] theorem State.beginIteration_run (s : State) : s.beginIteration.run = s.run := rfl
@[simp] theorem State.beginIteration_mem (s : State) : s.beginIteration.mem = s.mem := rfl
@[simp] theorem State.beginIteration_inputs (s : State) : s.beginIteration.inputs = s.inputs := rfl
@[simp] theorem State.beginIteration_iter (s : State) : s.beginIteration.iter = s.iter := rfl
@[simp] theorem State.beginIteration_present (s : State) : s.beginIteration.present = false := rfl
@[simp] theorem State.endIteration_v (s : State) : s.endIteration.v = s.v := rfl
@[simp] theorem State.endIteration_i (s : State) : s.endIteration.i = s.i := rfl
@[simp] theorem State.endIteration_pc (s : State) : s.endIteration.pc = s.pc := rfl
@[simp] theorem State.endIteration_stack (s : State) : s.endIteration.stack = s.stack := rfl
@[simp] theorem State.endIteration_sp (s : State) : s.endIteration.sp = s.sp := rfl
@[simp] theorem State.endIteration_dt (s : State) : s.endIteration.dt = s.dt := rfl
@[simp] theorem State.endIteration_st (s : State) : s.endIteration.st = s.st := rfl
@[simp] theorem State.endIteration_fb (s : State) : s.endIteration.fb = s.fb := rfl
@[simp] theorem State.endIteration_shadow (s : State) : s.endIteration.shadow = s.shadow := rfl
@[simp] theorem State.endIteration_run (s : State) : s.endIteration.run = s.run := rfl
@[simp] theorem State.endIteration_mem (s : State) : s.endIteration.mem = s.mem := rfl
@[simp] theorem State.endIteration_inputs (s : State) : s.endIteration.inputs = s.inputs.tail := rfl
@[simp] theorem State.endIteration_iter (s : State) : s.endIteration.iter = s.iter + 1 := rfl
@[simp] theorem State.endIteration_present (s : State) : s.endIteration.present = s.present := rfl

/-! ### Registers -/

/-- Reading a register after writing one (spec/10_state.md R20). -/
@[simp] theorem State.setV_getV (s : State) (x : RegIx) (b : Byte) (k : RegIx) :
    (s.setV x b).getV k = if k = x then b else s.getV k := by
  simp only [State.getV, State.setV]
  rw [Vector.getElem_set]
  by_cases h : k = x
  · subst h; simp
  · have : x.toNat ≠ k.toNat := fun e => h (BitVec.eq_of_toNat_eq e.symm)
    simp [h, this]

/-- A result and then the flag: the flag is read back, also where the destination is VF (spec/10_state.md R21). -/
@[simp] theorem State.setVThenFlag_getV (s : State) (x : RegIx) (b c : Byte) (k : RegIx) :
    (s.setVThenFlag x b c).getV k = if k = vf then c else if k = x then b else s.getV k := by
  simp [State.setVThenFlag]

/-- Two states agree on every register exactly when they hold the same register file. -/
theorem v_ext {s t : State} (h : ∀ k, s.getV k = t.getV k) : s.v = t.v := by
  apply Vector.ext
  intro n hn
  have := h (BitVec.ofNat 4 n)
  simpa [State.getV, BitVec.toNat_ofNat, Nat.mod_eq_of_lt hn] using this

end Sys2Proof.Machine
end

