-- ==== Sys2Proof/Laws/Ops.lean ====
section
/-! SUPPORT. What the shared operations do, once for each: the stack, skips, checked accesses, register loads, fetch, timers,
program load. -/

namespace Sys2Proof.Machine

/-! ### The call stack (spec/10_state.md R30) -/

/-- Everything push can do: a full stack refuses; else the entry at SP is written and SP grows by one. -/
theorem State.push_cases (s : State) (w : Word) :
    (s.sp.val = Config.stackDepth ∧ s.push w = none) ∨
    (∃ t, s.sp.val < Config.stackDepth ∧ s.push w = some t ∧ t = { s with stack := t.stack, sp := t.sp } ∧
      t.sp.val = s.sp.val + 1 ∧
      ∀ (k : Nat) (h : k < Config.stackDepth), t.stack[k] = if k = s.sp.val then w else s.stack[k]) := by
  by_cases h : s.sp.val < Config.stackDepth
  · refine .inr ⟨{ s with stack := s.stack.set s.sp.val w h, sp := ⟨s.sp.val + 1, by omega⟩ }, h, ?_, rfl, rfl, ?_⟩
    · simp [State.push, h]
    · intro k hk
      show (s.stack.set s.sp.val w h)[k] = _
      rw [Vector.getElem_set]
      simp [eq_comm]
  · have := s.sp.isLt
    refine .inl ⟨by omega, by simp [State.push, h]⟩

/-- Everything pop can do: an empty stack refuses; else the newest entry is answered and SP falls by one. -/
theorem State.pop_cases (s : State) :
    (s.sp.val = 0 ∧ s.pop = none) ∨
    (∃ t, ∃ h : s.sp.val - 1 < Config.stackDepth, 0 < s.sp.val ∧ s.pop = some (s.stack[s.sp.val - 1], t) ∧
      t = { s with sp := t.sp } ∧ t.sp.val = s.sp.val - 1) := by
  by_cases h : s.sp.val = 0
  · exact .inl ⟨h, by simp [State.pop, h]⟩
  · have := s.sp.isLt
    refine .inr ⟨{ s with sp := ⟨s.sp.val - 1, by omega⟩ }, by omega, by omega, ?_, rfl, rfl⟩
    simp [State.pop, h]

/-! ### Skips and checked accesses -/

/-- A skip changes PC only, by 2 when its condition holds (spec/41_flow.md R123). -/
theorem State.skipIf_eq (s : State) (c : Bool) : s.skipIf c = s.setPc (if c then s.pc + 2#16 else s.pc) := by
  cases c <;> rfl

/-- A span access does its effect when its last address exists, and else raises DataOutOfRange (spec/20_memory.md R55). -/
theorem State.accessSpan_cases (s : State) (last : Nat) (ok : State) :
    (s.i.toNat + last ≤ 0xFFF ∧ s.accessSpan last ok = ok) ∨
    (0xFFF < s.i.toNat + last ∧ s.accessSpan last ok = s.raise .dataOutOfRange (some (max s.i.toNat 0x1000))) := by
  by_cases h : s.i.toNat + last ≤ 0xFFF
  · exact .inl ⟨h, by simp [State.accessSpan, spanFits, h]⟩
  · exact .inr ⟨by omega, by simp [State.accessSpan, spanFits, firstBadAddress, h]⟩

/-- A register load changes the register file only (spec/43_index_memory.md R175). -/
theorem State.loadFrom_frame (bs : List Byte) : ∀ (s : State) (k : Nat), s.loadFrom k bs = { s with v := (s.loadFrom k bs).v } := by
  induction bs with
  | nil => intro s k; rfl
  | cons b bs ih =>
    intro s k
    rw [State.loadFrom, ih]
    rfl

/-- A register load of at most 16 - k bytes from register k upwards: register k + j receives byte j (R175). -/
theorem State.loadFrom_getV (bs : List Byte) : ∀ (s : State) (k : Nat), k + bs.length ≤ 16 → ∀ r : RegIx,
    (s.loadFrom k bs).getV r = if k ≤ r.toNat ∧ r.toNat < k + bs.length then bs.getD (r.toNat - k) 0 else s.getV r := by
  induction bs with
  | nil =>
    intro s k _ r
    have : ¬ (k ≤ r.toNat ∧ r.toNat < k) := by omega
    simp [State.loadFrom, this]
  | cons b bs ih =>
    intro s k h r
    simp only [List.length_cons] at h ⊢
    rw [State.loadFrom, ih _ _ (by omega), State.setV_getV]
    have hk : (BitVec.ofNat 4 k).toNat = k := by rw [BitVec.toNat_ofNat]; omega
    by_cases h0 : r.toNat = k
    · have hr : r = BitVec.ofNat 4 k := BitVec.eq_of_toNat_eq (by omega)
      have h1 : ¬ (k + 1 ≤ r.toNat ∧ r.toNat < k + 1 + bs.length) := by omega
      have h2 : k ≤ r.toNat ∧ r.toNat < k + (bs.length + 1) := by omega
      rw [if_neg h1, if_pos hr, if_pos h2, h0]
      simp
    · have hr : r ≠ BitVec.ofNat 4 k := by intro e; rw [e] at h0; omega
      rw [if_neg hr]
      by_cases h1 : k + 1 ≤ r.toNat ∧ r.toNat < k + 1 + bs.length
      · have h2 : k ≤ r.toNat ∧ r.toNat < k + (bs.length + 1) := by omega
        rw [if_pos h1, if_pos h2]
        have : r.toNat - k = (r.toNat - (k + 1)) + 1 := by omega
        simp [this]
      · have h2 : ¬ (k ≤ r.toNat ∧ r.toNat < k + (bs.length + 1)) := by omega
        rw [if_neg h1, if_neg h2]

/-- The stored registers of FX55: V0..VX in order (R174). -/
theorem State.firstRegs_length (s : State) (x : RegIx) : (s.firstRegs x).length = x.toNat + 1 := by
  have := x.isLt
  simp only [State.firstRegs, List.length_take, Vector.length_toList]
  omega

theorem State.firstRegs_getD (s : State) (x : RegIx) (k : Nat) (h : k ≤ x.toNat) :
    (s.firstRegs x).getD k 0 = s.getV (BitVec.ofNat 4 k) := by
  have := x.isLt
  have hk : (BitVec.ofNat 4 k).toNat = k := by rw [BitVec.toNat_ofNat]; omega
  have h16 : k < 16 := by omega
  rw [State.firstRegs, List.getD_eq_getElem?_getD, List.getElem?_take_of_lt (by omega)]
  simp [State.getV, hk, h16]

/-! ### Words and fetch -/

/-- The word at an address whose two bytes exist (spec/20_memory.md R53). -/
theorem Memory.word_some (m : Memory) (a : Nat) (h : a + 1 ≤ 0xFFF) :
    m.word a = some (m.get a ++ m.get (a + 1)) := by
  have : a + 1 < Config.memSize := by simp only [Config.memSize]; omega
  simp [Memory.word, this, wordOfBytes]

/-- No word at an address whose second byte lies above 0xFFF (R56). -/
theorem Memory.word_none (m : Memory) (a : Nat) (h : 0xFFF < a + 1) : m.word a = none := by
  have : ¬ a + 1 < Config.memSize := by simp only [Config.memSize]; omega
  simp [Memory.word, this]

/-! ### Timers (spec/45_timers.md R213 to R215) -/

/-- Reading DT writes its integer part into one register. -/
@[simp] theorem State.readDelay_getV (s : State) (f : Nat) (x k : RegIx) :
    (s.readDelay f x).getV k = if k = x then BitVec.ofNat 8 (s.dt / 2 ^ f) else s.getV k := by
  rw [State.readDelay, State.setV_getV, byteOfTimer, Nat.shiftRight_eq_div_pow]

/-- Reading DT changes the register file only. -/
theorem State.readDelay_frame (s : State) (f : Nat) (x : RegIx) : s.readDelay f x = { s with v := (s.readDelay f x).v } := rfl

/-- Setting DT changes DT only. -/
theorem State.setDelay_eq (s : State) (f : Nat) (x : RegIx) : s.setDelay f x = { s with dt := (s.getV x).toNat * 2 ^ f } := by
  rw [State.setDelay, timerOfByte, Nat.shiftLeft_eq]
  rfl

/-- Setting ST changes ST only. -/
theorem State.setSound_eq (s : State) (f : Nat) (x : RegIx) : s.setSound f x = { s with st := (s.getV x).toNat * 2 ^ f } := by
  rw [State.setSound, timerOfByte, Nat.shiftLeft_eq]
  rfl

/-! ### Program load (spec/70_reset_and_hazards.md R280, R281) -/

/-- Memory after the zero fill and the font: the font's bytes at 0x050..0x09F and 0x00 elsewhere. -/
theorem fontMemory_get (font : FontTable) (a : Nat) :
    (fontMemory font).get a = if h : 0x050 ≤ a ∧ a - 0x050 < 80 then font[a - 0x050]'h.2 else 0x00#8 := by
  rw [fontMemory, Memory.get_setBytes _ _ _ (by simp [Config.memSize, Config.fontBase])]
  have hl : font.toList.length = 80 := by simp
  simp only [hl, Config.fontBase]
  by_cases h : 0x050 ≤ a ∧ a - 0x050 < 80
  · rw [if_pos (by omega), dif_pos h]
    simp [List.getD_eq_getElem?_getD, h.2]
  · rw [if_neg (by omega), dif_neg h, Memory.get_nil]
    exact dif_neg h

/-- Everything load can do: a program that fits replaces the whole state but the stack entries and the model's own inputs and iter; a
longer one leaves the font memory and the record. -/
theorem State.load_cases (s : State) (font : FontTable) (program : List Byte) :
    (program.length ≤ 0xE00 ∧ s.load font program =
      { s with
        mem := (fontMemory font).setBytes 0x200 program, v := Vector.replicate 16 0x00#8, i := 0x0000#16, pc := 0x0200#16,
        sp := ⟨0, by decide⟩, dt := 0, st := 0, fb := Framebuffer.clear, shadow := 0x0000#16, present := false, run := .running }) ∨
    (0xE00 < program.length ∧ s.load font program =
      { s with
        mem := fontMemory font, present := false, run := .faulted ⟨.loadOverflow, none, none, some program.length⟩ }) := by
  by_cases h : program.length > Config.memSize - Config.programBase
  · have h' : 0xE00 < program.length := h
    exact .inr ⟨h', if_pos h⟩
  · have h' : ¬ 0xE00 < program.length := h
    exact .inl ⟨by omega, if_neg h⟩

end Sys2Proof.Machine
end

