-- ==== Sys2Proof/Laws/Cycle.lean ====
section
/-! SUPPORT. What one step can do (spec/40_cycle.md R101, R107), and that every instruction answers a next state. -/

namespace Sys2Proof.Machine

/-- A timer advance is a subtraction that stops at 0 (spec/45_timers.md R211). -/
theorem countDown_eq (raw e : Nat) : countDown raw e = raw - e := by
  unfold countDown
  split
  · omega
  · split <;> omega

/-- A timer advance takes `e` from both timers and changes nothing else (R211). -/
theorem State.advanceTimers_eq (s : State) (e : Nat) : s.advanceTimers e = { s with dt := s.dt - e, st := s.st - e } := by
  rw [State.advanceTimers, countDown_eq, countDown_eq]

/-- Everything a step can do: the block is stopped; the fetch faults; or the fetched word's instruction is executed. -/
theorem step_cases (s : State) :
    (∃ r, s.run = .faulted r ∧ step s = .next s.idleIteration) ∨
    (s.run = .running ∧ 0xFFF < s.pc.toNat + 1 ∧ step s = .next s.fetchFaultIteration) ∨
    (s.run = .running ∧ s.pc.toNat + 1 ≤ 0xFFF ∧
      step s = closeIteration (exec (decode (s.mem.get s.pc.toNat ++ s.mem.get (s.pc.toNat + 1)))
        (s.beginIteration.setPc (s.pc + 2#16)))) := by
  unfold step
  cases hr : s.run with
  | faulted r => exact .inl ⟨r, rfl, rfl⟩
  | running =>
    right
    by_cases h : s.pc.toNat + 1 ≤ 0xFFF
    · exact .inr ⟨rfl, h, by simp [State.fetch, Memory.word_some _ _ h]⟩
    · exact .inl ⟨rfl, by omega, by simp [State.fetch, Memory.word_none s.mem s.pc.toNat (by omega)]⟩

end Sys2Proof.Machine
end

