-- ==== Sys2Proof/Laws/Decode.lean ====
section
/-! SUPPORT. The fields of encoded words, and the match value and mask of each layout (spec/30_encoding.md R71, R73, R78). -/

namespace Sys2Proof

/-! ### The fields of a layout -/

theorem extract_append (a b : Nat) {m n : Nat} (x : BitVec m) (y : BitVec n) (h : n ≤ a) :
    (x ++ y).extractLsb' a b = x.extractLsb' (a - n) b := by
  ext i hi
  have h1 : ¬ a + i < n := by omega
  have h2 : a + i - n = a - n + i := by omega
  simp [BitVec.getElem_extractLsb', BitVec.getLsbD_append, h1, h2]

theorem extract_append_low (a b : Nat) {m n : Nat} (x : BitVec m) (y : BitVec n) (h : a + b ≤ n) :
    (x ++ y).extractLsb' a b = y.extractLsb' a b := by
  ext i hi
  have h1 : a + i < n := by omega
  simp [BitVec.getElem_extractLsb', BitVec.getLsbD_append, h1]

theorem extract_all {n : Nat} (x : BitVec n) : x.extractLsb' 0 n = x := by
  ext i hi; simp

@[simp] theorem fieldOp_encNNN (op : Nibble) (nnn : Addr12) : fieldOp (encNNN op nnn) = op := by
  rw [fieldOp, encNNN, extract_append 12 4 op nnn (by omega)]; exact extract_all op

@[simp] theorem fieldNNN_encNNN (op : Nibble) (nnn : Addr12) : fieldNNN (encNNN op nnn) = nnn := by
  rw [fieldNNN, encNNN, extract_append_low 0 12 op nnn (by omega)]; exact extract_all nnn

@[simp] theorem fieldOp_encXNN (op : Nibble) (x : RegIx) (nn : Byte) : fieldOp (encXNN op x nn) = op := by
  rw [fieldOp, encXNN, extract_append 12 4 op (x ++ nn) (by omega)]; exact extract_all op

@[simp] theorem fieldX_encXNN (op : Nibble) (x : RegIx) (nn : Byte) : fieldX (encXNN op x nn) = x := by
  rw [fieldX, encXNN, extract_append_low 8 4 op (x ++ nn) (by omega), extract_append 8 4 x nn (by omega)]
  exact extract_all x

@[simp] theorem fieldNN_encXNN (op : Nibble) (x : RegIx) (nn : Byte) : fieldNN (encXNN op x nn) = nn := by
  rw [fieldNN, encXNN, extract_append_low 0 8 op (x ++ nn) (by omega), extract_append_low 0 8 x nn (by omega)]
  exact extract_all nn

@[simp] theorem fieldOp_encXYN (op : Nibble) (x y : RegIx) (n : Nibble) : fieldOp (encXYN op x y n) = op := by
  rw [fieldOp, encXYN, extract_append 12 4 op (x ++ (y ++ n)) (by omega)]; exact extract_all op

@[simp] theorem fieldX_encXYN (op : Nibble) (x y : RegIx) (n : Nibble) : fieldX (encXYN op x y n) = x := by
  rw [fieldX, encXYN, extract_append_low 8 4 op (x ++ (y ++ n)) (by omega), extract_append 8 4 x (y ++ n) (by omega)]
  exact extract_all x

@[simp] theorem fieldY_encXYN (op : Nibble) (x y : RegIx) (n : Nibble) : fieldY (encXYN op x y n) = y := by
  rw [fieldY, encXYN, extract_append_low 4 4 op (x ++ (y ++ n)) (by omega),
    extract_append_low 4 4 x (y ++ n) (by omega), extract_append 4 4 y n (by omega)]
  exact extract_all y

@[simp] theorem fieldN_encXYN (op : Nibble) (x y : RegIx) (n : Nibble) : fieldN (encXYN op x y n) = n := by
  rw [fieldN, encXYN, extract_append_low 0 4 op (x ++ (y ++ n)) (by omega),
    extract_append_low 0 4 x (y ++ n) (by omega), extract_append_low 0 4 y n (by omega)]
  exact extract_all n

/-- The two bytes of a word give the word back (R53). -/
@[simp] theorem wordOfBytes_bytes (w : Word) : wordOfBytes (highByte w) (lowByte w) = w := by
  apply BitVec.eq_of_getLsbD_eq
  intro i hi
  simp only [wordOfBytes, highByte, lowByte, BitVec.getLsbD_append, BitVec.getLsbD_extractLsb']
  by_cases h : i < 8
  · simp [h]
  · have h1 : i - 8 < 8 := by omega
    have h2 : 8 + (i - 8) = i := by omega
    simp [h, h1, h2]

/-- The high byte of a word of two bytes. -/
@[simp] theorem highByte_wordOfBytes (hi lo : Byte) : highByte (wordOfBytes hi lo) = hi := by
  rw [highByte, wordOfBytes, extract_append 8 8 hi lo (by omega)]; exact extract_all hi

/-- The low byte of a word of two bytes. -/
@[simp] theorem lowByte_wordOfBytes (hi lo : Byte) : lowByte (wordOfBytes hi lo) = lo := by
  rw [lowByte, wordOfBytes, extract_append_low 0 8 hi lo (by omega)]; exact extract_all lo

/-! ### The mask of a layout keeps its fixed bits (R78) -/

theorem mask_encNNN (op : Nibble) (nnn : Addr12) : encNNN op nnn &&& 0xF000#16 = encNNN op 0x000#12 := by
  have : (0xF000#16) = (0xF#4 ++ 0x000#12 : BitVec (4 + 12)) := by decide
  have h : op &&& 0xF#4 = op := BitVec.and_allOnes
  rw [encNNN, this, BitVec.and_append, h, encNNN, BitVec.and_zero]

theorem mask_encXNN_op (op : Nibble) (x : RegIx) (nn : Byte) : encXNN op x nn &&& 0xF000#16 = encXNN op 0x0#4 0x00#8 := by
  have : (0xF000#16) = (0xF#4 ++ (0x0#4 ++ 0x00#8) : BitVec (4 + (4 + 8))) := by decide
  have h : op &&& 0xF#4 = op := BitVec.and_allOnes
  rw [encXNN, this, BitVec.and_append, BitVec.and_append, h, encXNN, BitVec.and_zero, BitVec.and_zero]

theorem mask_encXNN_sub (op : Nibble) (x : RegIx) (nn : Byte) : encXNN op x nn &&& 0xF0FF#16 = encXNN op 0x0#4 nn := by
  have : (0xF0FF#16) = (0xF#4 ++ (0x0#4 ++ 0xFF#8) : BitVec (4 + (4 + 8))) := by decide
  have h : op &&& 0xF#4 = op := BitVec.and_allOnes
  have h' : nn &&& 0xFF#8 = nn := BitVec.and_allOnes
  rw [encXNN, this, BitVec.and_append, BitVec.and_append, h, h', encXNN, BitVec.and_zero]

theorem mask_encXYN_op (op : Nibble) (x y : RegIx) (n : Nibble) :
    encXYN op x y n &&& 0xF000#16 = encXYN op 0x0#4 0x0#4 0x0#4 := by
  have : (0xF000#16) = (0xF#4 ++ (0x0#4 ++ (0x0#4 ++ 0x0#4)) : BitVec (4 + (4 + (4 + 4)))) := by decide
  have h : op &&& 0xF#4 = op := BitVec.and_allOnes
  rw [encXYN, this, BitVec.and_append, BitVec.and_append, BitVec.and_append, h, encXYN]
  simp only [BitVec.and_zero]

theorem mask_encXYN_sub (op : Nibble) (x y : RegIx) (n : Nibble) :
    encXYN op x y n &&& 0xF00F#16 = encXYN op 0x0#4 0x0#4 n := by
  have : (0xF00F#16) = (0xF#4 ++ (0x0#4 ++ (0x0#4 ++ 0xF#4)) : BitVec (4 + (4 + (4 + 4)))) := by decide
  have h : op &&& 0xF#4 = op := BitVec.and_allOnes
  have h' : n &&& 0xF#4 = n := BitVec.and_allOnes
  rw [encXYN, this, BitVec.and_append, BitVec.and_append, BitVec.and_append, h, h', encXYN]
  simp only [BitVec.and_zero]

end Sys2Proof
end

