-- ==== Sys2Proof/Laws/Display.lean ====
section
/-! SUPPORT. What the compositor does to every pixel and to the collision (spec/44_display.md R192 to R195). -/

namespace Sys2Proof.Machine

/-- A flip inverts its own pixel and no other (R195). -/
theorem Framebuffer.pixel_flip (f : Framebuffer) (x y u v : Nat) :
    (f.flip x y).pixel u v = (f.pixel u v ^^ decide (u = x ∧ v = y ∧ x < 64 ∧ y < 32)) := by
  unfold Framebuffer.flip Framebuffer.pixel
  by_cases h : x < 64 ∧ y < 32
  · rw [dif_pos h]
    by_cases g : u < 64 ∧ v < 32
    · rw [dif_pos g, dif_pos g]
      simp only [Vector.getElem_set]
      by_cases hx : x = u
      · subst hx
        by_cases hy : y = v
        · subst hy; simp [h]
        · have : ¬ v = y := fun e => hy e.symm
          simp [hy, this]
      · have : ¬ u = x := fun e => hx e.symm
        simp [hx, this]
    · rw [dif_neg g, dif_neg g]
      have : ¬ (u = x ∧ v = y ∧ x < 64 ∧ y < 32) := by
        rintro ⟨rfl, rfl, h1, h2⟩; exact g ⟨h1, h2⟩
      simp [this]
  · rw [dif_neg h]
    have : ¬ (u = x ∧ v = y ∧ x < 64 ∧ y < 32) := by rintro ⟨_, _, h3⟩; exact h h3
    simp [this]

/-- A pixel outside the grid is off (R190). -/
theorem Framebuffer.pixel_outside (f : Framebuffer) (x y : Nat) (h : ¬ (x < 64 ∧ y < 32)) : f.pixel x y = false := by
  simp [Framebuffer.pixel, h]

/-- Two framebuffers with the same pixels are the same. -/
theorem Framebuffer.ext_pixel {f g : Framebuffer} (h : ∀ x y, x < 64 → y < 32 → f.pixel x y = g.pixel x y) : f = g := by
  apply Vector.ext
  intro x hx
  apply Vector.ext
  intro y hy
  have := h x y hx hy
  simpa [Framebuffer.pixel, hx, hy] using this

/-- A cleared framebuffer has no pixel on (R191). -/
@[simp] theorem Framebuffer.pixel_clear (x y : Nat) : Framebuffer.clear.pixel x y = false := by
  unfold Framebuffer.pixel Framebuffer.clear
  split <;> simp

/-! ### The bit of a sprite over a pixel -/

theorem spriteBit_true {bs : List Byte} {x0 y0 x y : Nat} (h : spriteBit bs x0 y0 x y = true) :
    x < 64 ∧ y < 32 ∧ y0 ≤ y ∧ y < y0 + bs.length ∧ x0 ≤ x ∧ x < x0 + 8 := by
  unfold spriteBit at h
  by_contra hn
  rw [if_neg hn] at h
  exact absurd h (by simp)

theorem spriteBit_outside {bs : List Byte} {x0 y0 x y : Nat}
    (h : ¬ (x < 64 ∧ y < 32 ∧ y0 ≤ y ∧ y < y0 + bs.length ∧ x0 ≤ x ∧ x < x0 + 8)) : spriteBit bs x0 y0 x y = false :=
  if_neg h

/-- One row: its bits lie on its own row only. -/
theorem spriteBit_row (b : Byte) (x0 y u v : Nat) : spriteBit [b] x0 y u v =
    if u < 64 ∧ v = y ∧ y < 32 ∧ x0 ≤ u ∧ u < x0 + 8 then b.getLsbD (7 - (u - x0)) else false := by
  unfold spriteBit
  by_cases h : u < 64 ∧ v = y ∧ y < 32 ∧ x0 ≤ u ∧ u < x0 + 8
  · obtain ⟨h1, rfl, h2, h3, h4⟩ := h
    rw [if_pos ⟨h1, h2, le_refl _, by simp, h3, h4⟩, if_pos ⟨h1, rfl, h2, h3, h4⟩]
    simp
  · rw [if_neg h, if_neg (by simp only [List.length_singleton]; omega)]

/-- The first row of a sprite and the rows after it. -/
theorem spriteBit_cons (b : Byte) (bs : List Byte) (x0 y0 x y : Nat) :
    spriteBit (b :: bs) x0 y0 x y = if y = y0 then spriteBit [b] x0 y0 x y else spriteBit bs x0 (y0 + 1) x y := by
  by_cases hy : y = y0
  · subst hy
    rw [if_pos rfl]
    unfold spriteBit
    refine if_congr ?_ (by simp) rfl
    simp only [List.length_cons, List.length_nil]
    omega
  · rw [if_neg hy]
    unfold spriteBit
    refine if_ctx_congr ?_ ?_ (fun _ => rfl)
    · simp only [List.length_cons]; omega
    · intro h
      obtain ⟨d, rfl⟩ : ∃ d, y = y0 + 1 + d := ⟨y - (y0 + 1), by omega⟩
      have e1 : y0 + 1 + d - y0 = d + 1 := by omega
      have e2 : y0 + 1 + d - (y0 + 1) = d := by omega
      rw [e1, e2, List.getD_cons_succ]

/-! ### The loops of R192 -/

/-- What the last `n` bits of a row byte do: each 1 bit on the grid flips its pixel, and a pixel that was on is a collision. -/
theorem Canvas.drawBits_effect (b : Byte) (x0 y : Nat) : ∀ (n : Nat), n ≤ 8 → ∀ (c : Canvas),
    (∀ u v, (c.drawBits b x0 y n).fb.pixel u v =
      (c.fb.pixel u v ^^ (decide (x0 + (8 - n) ≤ u) && spriteBit [b] x0 y u v))) ∧
    ((c.drawBits b x0 y n).coll = true ↔
      c.coll = true ∨ ∃ u, x0 + (8 - n) ≤ u ∧ spriteBit [b] x0 y u y = true ∧ c.fb.pixel u y = true) := by
  intro n
  induction n with
  | zero =>
    intro _ c
    have none_left : ∀ u v, x0 + 8 ≤ u → spriteBit [b] x0 y u v = false := fun u v h =>
      spriteBit_outside (by omega)
    constructor
    · intro u v
      by_cases h : x0 + 8 ≤ u
      · simp [Canvas.drawBits, none_left u v h]
      · simp [Canvas.drawBits, h]
    · simp only [Canvas.drawBits]
      constructor
      · exact .inl
      · rintro (h | ⟨u, h1, h2, _⟩)
        · exact h
        · rw [none_left u y (by omega)] at h2
          exact absurd h2 (by simp)
  | succ n ih =>
    intro hn c
    have ih := ih (by omega)
    have e8 : 8 - (n + 1) = 7 - n := by omega
    rw [Canvas.drawBits, e8]
    by_cases hc : x0 + (7 - n) > 63
    · rw [if_pos hc]
      have clipped : ∀ u v, x0 + (7 - n) ≤ u → spriteBit [b] x0 y u v = false := fun u v h =>
        spriteBit_outside (by omega)
      constructor
      · intro u v
        by_cases h : x0 + (7 - n) ≤ u
        · simp [clipped u v h]
        · simp [h]
      · constructor
        · exact .inl
        · rintro (h | ⟨u, h1, h2, _⟩)
          · exact h
          · rw [clipped u y h1] at h2
            exact absurd h2 (by simp)
    · rw [if_neg hc]
      have bit_at : ∀ v, spriteBit [b] x0 y (x0 + (7 - n)) v = (decide (v = y ∧ y < 32) && b.getLsbD n) := by
        intro v
        have e : 7 - (x0 + (7 - n) - x0) = n := by omega
        rw [spriteBit_row, e]
        by_cases hv : v = y ∧ y < 32
        · rw [if_pos ⟨by omega, hv.1, hv.2, by omega, by omega⟩]; simp [hv]
        · rw [if_neg (by omega)]; simp only [hv, decide_false, Bool.false_and]
      by_cases hb : b.getLsbD n = true
      · rw [if_pos hb]
        obtain ⟨hp, hk⟩ := ih (c.hit (x0 + (7 - n)) y)
        constructor
        · intro u v
          rw [hp u v]
          simp only [Canvas.hit, Framebuffer.pixel_flip]
          by_cases hu : u = x0 + (7 - n)
          · subst hu
            have h1 : ¬ x0 + (8 - n) ≤ x0 + (7 - n) := by omega
            have h3 : x0 + (7 - n) < 64 := by omega
            rw [bit_at v]
            simp [h1, h3, hb]
          · have h1 : (x0 + (8 - n) ≤ u) ↔ (x0 + (7 - n) ≤ u) := by omega
            simp [h1, hu]
        · rw [hk]
          simp only [Canvas.hit, Framebuffer.pixel_flip, Bool.or_eq_true]
          constructor
          · rintro ((h | h) | ⟨u, h1, h2, h3⟩)
            · exact .inl h
            · by_cases hy : y < 32
              · exact .inr ⟨x0 + (7 - n), by omega, by rw [bit_at]; simp [hy, hb], h⟩
              · rw [Framebuffer.pixel_outside _ _ _ (by omega)] at h
                exact absurd h (by simp)
            · refine .inr ⟨u, by omega, h2, ?_⟩
              have : ¬ u = x0 + (7 - n) := by omega
              simpa [this] using h3
          · rintro (h | ⟨u, h1, h2, h3⟩)
            · exact .inl (.inl h)
            · by_cases hu : u = x0 + (7 - n)
              · subst hu; exact .inl (.inr h3)
              · exact .inr ⟨u, by omega, h2, by simpa [hu] using h3⟩
      · rw [if_neg hb]
        obtain ⟨hp, hk⟩ := ih c
        have none_at : ∀ u v, u = x0 + (7 - n) → spriteBit [b] x0 y u v = false := by
          rintro u v rfl; rw [bit_at]; simp [hb]
        constructor
        · intro u v
          rw [hp u v]
          by_cases hu : u = x0 + (7 - n)
          · simp [none_at u v hu]
          · have h1 : (x0 + (8 - n) ≤ u) ↔ (x0 + (7 - n) ≤ u) := by omega
            simp [h1]
        · rw [hk]
          refine or_congr Iff.rfl (exists_congr fun u => ?_)
          by_cases hu : u = x0 + (7 - n)
          · simp [none_at u y hu]
          · have h1 : (x0 + (8 - n) ≤ u) ↔ (x0 + (7 - n) ≤ u) := by omega
            rw [h1]

/-- What the rows of a sprite do: every pixel under a 1 bit flips, and a pixel that was on is a collision. -/
theorem Canvas.drawRows_effect (x0 : Nat) (bs : List Byte) : ∀ (y : Nat) (c : Canvas),
    (∀ u v, (Canvas.drawRows x0 y bs c).fb.pixel u v = (c.fb.pixel u v ^^ spriteBit bs x0 y u v)) ∧
    ((Canvas.drawRows x0 y bs c).coll = true ↔
      c.coll = true ∨ ∃ u v, spriteBit bs x0 y u v = true ∧ c.fb.pixel u v = true) := by
  induction bs with
  | nil =>
    intro y c
    have : ∀ u v, spriteBit [] x0 y u v = false := fun u v =>
      spriteBit_outside (by simp only [List.length_nil]; omega)
    simp [Canvas.drawRows, this]
  | cons b bs ih =>
    intro y c
    obtain ⟨rp, rk⟩ := Canvas.drawBits_effect b x0 y 8 (le_refl 8) c
    obtain ⟨hp, hk⟩ := ih (y + 1) (c.drawBits b x0 y 8)
    have first_row : ∀ {u v}, spriteBit [b] x0 y u v = true → v = y ∧ x0 ≤ u := by
      intro u v h
      have := spriteBit_true h
      simp only [List.length_singleton] at this
      omega
    have later_row : ∀ {u v}, spriteBit bs x0 (y + 1) u v = true → v ≠ y := by
      intro u v h
      have := spriteBit_true h
      omega
    have rp' : ∀ u v, (c.drawBits b x0 y 8).fb.pixel u v = (c.fb.pixel u v ^^ spriteBit [b] x0 y u v) := by
      intro u v
      rw [rp u v]
      cases hb : spriteBit [b] x0 y u v with
      | false => simp
      | true => simp [(first_row hb).2]
    constructor
    · intro u v
      rw [Canvas.drawRows, hp, rp', spriteBit_cons b bs]
      by_cases hv : v = y
      · have : spriteBit bs x0 (y + 1) u v = false := by
          by_contra h; exact later_row (by simpa using h) hv
        rw [this, if_pos hv, Bool.xor_false]
      · have : spriteBit [b] x0 y u v = false := by
          by_contra h; exact hv (first_row (by simpa using h)).1
        simp [hv, this]
    · rw [Canvas.drawRows, hk, rk]
      constructor
      · rintro ((h | ⟨u, _, h2, h3⟩) | ⟨u, v, h2, h3⟩)
        · exact .inl h
        · exact .inr ⟨u, y, by rw [spriteBit_cons b bs, if_pos rfl]; exact h2, h3⟩
        · have hv := later_row h2
          refine .inr ⟨u, v, by rw [spriteBit_cons b bs, if_neg hv]; exact h2, ?_⟩
          have : spriteBit [b] x0 y u v = false := by
            by_contra h; exact hv (first_row (by simpa using h)).1
          simpa [rp', this] using h3
      · rintro (h | ⟨u, v, h2, h3⟩)
        · exact .inl (.inl h)
        · rw [spriteBit_cons b bs] at h2
          by_cases hv : v = y
          · subst hv
            rw [if_pos rfl] at h2
            exact .inl (.inr ⟨u, by simpa using (first_row h2).2, h2, h3⟩)
          · rw [if_neg hv] at h2
            have : spriteBit [b] x0 y u v = false := by
              by_contra h; exact hv (first_row (by simpa using h)).1
            exact .inr ⟨u, v, h2, by simpa [rp', this] using h3⟩

/-- What a sprite does to a framebuffer: the XOR of every pixel with the sprite's bit over it, and the collision exactly when some
pixel goes from on to off (R192, R195). -/
theorem drawSprite_effect (f : Framebuffer) (x0 y0 : Nat) (bs : List Byte) :
    (∀ u v, (drawSprite f x0 y0 bs).fb.pixel u v = (f.pixel u v ^^ spriteBit bs x0 y0 u v)) ∧
    ((drawSprite f x0 y0 bs).coll = true ↔ ∃ u v, spriteBit bs x0 y0 u v = true ∧ f.pixel u v = true) := by
  have := Canvas.drawRows_effect x0 bs y0 ⟨f, false⟩
  simpa [drawSprite] using this

/-! ### DXYN -/

/-- DXYN composes its sprite when every drawn row lies in memory, and else raises DataOutOfRange (R192). -/
theorem execDrw_cases (x y : RegIx) (n : Nibble) (s : State) :
    ((∀ i, i < drawnRows n (startRow (s.getV y)) → s.i.toNat + i ≤ 0xFFF) ∧
      execDrw x y n s = .next (s.composeSprite (startColumn (s.getV x)) (startRow (s.getV y))
        (drawnRows n (startRow (s.getV y))))) ∨
    ((∃ i, i < drawnRows n (startRow (s.getV y)) ∧ 0xFFF < s.i.toNat + i) ∧
      execDrw x y n s = .next (s.raise .dataOutOfRange (some (max s.i.toNat 0x1000)))) := by
  unfold execDrw
  dsimp only
  generalize startColumn (s.getV x) = x0
  generalize startRow (s.getV y) = y0
  generalize drawnRows n y0 = rows
  by_cases h0 : rows = 0
  · subst h0
    exact .inl ⟨fun i h => by omega, by rw [if_pos rfl]⟩
  · rw [if_neg h0]
    rcases s.accessSpan_cases (rows - 1) (s.composeSprite x0 y0 rows) with ⟨h, e⟩ | ⟨h, e⟩
    · exact .inl ⟨fun i hi => by omega, by rw [e]⟩
    · exact .inr ⟨⟨rows - 1, by omega, h⟩, by rw [e]⟩

/-- A composed sprite changes the framebuffer, VF and the present output only (R192, R197). -/
theorem State.composeSprite_eq (s : State) (x0 y0 rows : Nat) :
    s.composeSprite x0 y0 rows =
      { s with
        fb := (drawSprite s.fb x0 y0 (s.spriteRows rows)).fb
        v := (s.setV vf (flagByte (drawSprite s.fb x0 y0 (s.spriteRows rows)).coll)).v
        present := true } := rfl

end Sys2Proof.Machine
end

