-- ==== Sys2Proof/Laws/Keys.lean ====
section
/-! SUPPORT. What the scan of FX0A does (spec/46_input.md R234). -/

namespace Sys2Proof.Machine

theorem markKey_getLsbD (w : BitVec 16) (k j : Nat) (hj : j < 16) :
    (markKey w k).getLsbD j = (w.getLsbD j || decide (j = k)) := by
  simp only [markKey, BitVec.getLsbD_or, BitVec.getLsbD_shiftLeft, BitVec.getLsbD_one]
  by_cases h : j = k
  · subst h; simp [hj]
  · have : j < k ∨ j - k ≠ 0 := by omega
    rcases this with h1 | h1
    · simp [h, h1]
    · simp [h, h1]

theorem clearKey_getLsbD (w : BitVec 16) (k j : Nat) (hj : j < 16) :
    (clearKey w k).getLsbD j = (w.getLsbD j && !decide (j = k)) := by
  simp only [clearKey, BitVec.getLsbD_and, BitVec.getLsbD_not, BitVec.getLsbD_shiftLeft, BitVec.getLsbD_one]
  by_cases h : j = k
  · subst h; simp [hj]
  · have : j < k ∨ j - k ≠ 0 := by omega
    rcases this with h1 | h1
    · simp [h, h1, hj]
    · simp [h, h1, hj]

/-- Everything the scan of the last `n` keys can do: no key among them has an edge, and the held ones are marked; or the least key
with an edge completes, the held ones below it are marked, its bit is cleared and the bits above it stay. -/
theorem scanKeys_cases (keys : BitVec 16) : ∀ (n : Nat), n ≤ 16 → ∀ (shadow : BitVec 16),
    (∃ after, scanKeys keys n shadow = (after, none) ∧
      (∀ j, 16 - n ≤ j → j < 16 → keyEdge keys shadow j = false) ∧
      ∀ j, j < 16 → after.getLsbD j = (shadow.getLsbD j || (decide (16 - n ≤ j) && keys.getLsbD j))) ∨
    (∃ after k, scanKeys keys n shadow = (after, some k) ∧ 16 - n ≤ k ∧ k < 16 ∧ keyEdge keys shadow k = true ∧
      (∀ j, 16 - n ≤ j → j < k → keyEdge keys shadow j = false) ∧
      ∀ j, j < 16 → after.getLsbD j =
        if j < k then (shadow.getLsbD j || (decide (16 - n ≤ j) && keys.getLsbD j))
        else if j = k then false else shadow.getLsbD j) := by
  intro n
  induction n with
  | zero =>
    intro _ shadow
    refine .inl ⟨shadow, rfl, fun j h1 h2 => by omega, fun j hj => ?_⟩
    have : ¬ 16 - 0 ≤ j := by omega
    simp [this]
  | succ n ih =>
    intro hn shadow
    have e : 16 - (n + 1) = 15 - n := by omega
    have ih := ih (by omega)
    simp only [scanKeys, e]
    by_cases hk : keys.getLsbD (15 - n) = true
    · rw [if_pos hk]
      have edge_eq : ∀ j, j < 16 → keyEdge keys (markKey shadow (15 - n)) j = keyEdge keys shadow j := by
        intro j hj
        rw [keyEdge, keyEdge, markKey_getLsbD _ _ _ hj]
        by_cases h : j = 15 - n
        · subst h; simp [hk]
        · simp [h]
      have here : keyEdge keys shadow (15 - n) = false := by simp [keyEdge, hk]
      have bit_eq : ∀ j, j < 16 →
          ((markKey shadow (15 - n)).getLsbD j || (decide (16 - n ≤ j) && keys.getLsbD j)) =
          (shadow.getLsbD j || (decide (15 - n ≤ j) && keys.getLsbD j)) := by
        intro j hj
        rw [markKey_getLsbD _ _ _ hj]
        by_cases h : j = 15 - n
        · subst h; simp [hk]
        · have : (16 - n ≤ j) ↔ (15 - n ≤ j) := by omega
          simp [h, this]
      rcases ih (markKey shadow (15 - n)) with ⟨after, h1, h2, h3⟩ | ⟨after, k, h1, h2, h3, h4, h5, h6⟩
      · refine .inl ⟨after, h1, fun j hj1 hj2 => ?_, fun j hj => by rw [h3 j hj, bit_eq j hj]⟩
        by_cases h : j = 15 - n
        · rw [h]; exact here
        · rw [← edge_eq j hj2]; exact h2 j (by omega) hj2
      · refine .inr ⟨after, k, h1, by omega, h3, by rw [← edge_eq k h3]; exact h4, fun j hj1 hj2 => ?_, fun j hj => ?_⟩
        · by_cases h : j = 15 - n
          · rw [h]; exact here
          · rw [← edge_eq j (by omega)]; exact h5 j (by omega) hj2
        · rw [h6 j hj, bit_eq j hj]
          by_cases h : j < k
          · simp [h]
          · by_cases h' : j = k
            · simp [h']
            · have : j ≠ 15 - n := by omega
              simp [h, h', markKey_getLsbD _ _ _ hj, this]
    · rw [if_neg hk]
      by_cases hs : shadow.getLsbD (15 - n) = true
      · rw [if_pos hs]
        refine .inr ⟨clearKey shadow (15 - n), 15 - n, rfl, le_refl _, by omega, by simp [keyEdge, hk, hs],
          fun j h1 h2 => by omega, fun j hj => ?_⟩
        rw [clearKey_getLsbD _ _ _ hj]
        by_cases h : j < 15 - n
        · have h' : ¬ j = 15 - n := by omega
          have h'' : ¬ 15 - n ≤ j := by omega
          simp [h, h', h'']
        · by_cases h' : j = 15 - n <;> simp [h, h']
      · rw [if_neg hs]
        have here : keyEdge keys shadow (15 - n) = false := by simp [keyEdge, hs]
        have bit_eq : ∀ j, (shadow.getLsbD j || (decide (16 - n ≤ j) && keys.getLsbD j)) =
            (shadow.getLsbD j || (decide (15 - n ≤ j) && keys.getLsbD j)) := by
          intro j
          by_cases h : j = 15 - n
          · subst h; simp [hk]
          · have : (16 - n ≤ j) ↔ (15 - n ≤ j) := by omega
            simp [this]
        rcases ih shadow with ⟨after, h1, h2, h3⟩ | ⟨after, k, h1, h2, h3, h4, h5, h6⟩
        · refine .inl ⟨after, h1, fun j hj1 hj2 => ?_, fun j hj => by rw [h3 j hj, bit_eq j]⟩
          by_cases h : j = 15 - n
          · rw [h]; exact here
          · exact h2 j (by omega) hj2
        · refine .inr ⟨after, k, h1, by omega, h3, h4, fun j hj1 hj2 => ?_, fun j hj => by rw [h6 j hj, bit_eq j]⟩
          by_cases h : j = 15 - n
          · rw [h]; exact here
          · exact h5 j (by omega) hj2

/-- The key lookup: KeyOutOfRange above 0x0F, else a skip when the key is held exactly as asked (R232, R233, R236). -/
theorem State.skipOnKey_cases (s : State) (x : RegIx) (held : Bool) :
    ((s.getV x).toNat ≤ 0x0F ∧
      s.skipOnKey x held = s.setPc (if s.input.keys.getLsbD (s.getV x).toNat = held then s.pc + 2#16 else s.pc)) ∨
    (0x0F < (s.getV x).toNat ∧ s.skipOnKey x held = s.raise .keyOutOfRange (some (s.getV x).toNat)) := by
  by_cases h : (s.getV x).toNat > 0x0F
  · exact .inr ⟨h, by simp [State.skipOnKey, h]⟩
  · refine .inl ⟨by omega, ?_⟩
    have e : s.skipOnKey x held = s.skipIf (s.input.keys.getLsbD (s.getV x).toNat == held) := by
      simp [State.skipOnKey, h]
    rw [e, State.skipIf_eq]
    simp only [beq_iff_eq]

end Sys2Proof.Machine
end

