-- ==== Sys2Proof/Laws/PerInstr.lean ====
section
/-! SUPPORT. The family Row: the encoding of every instruction lies in its row of the opcode map: masked with the row's mask it is the
row's match value (spec/30_encoding.md R78). -/

namespace Sys2Proof.Laws.Row

/-- The match value of the row of spec/30_encoding.md R78; an unmatched word has no row. -/
def rowMatch : Instr → Word
  | .cls => 0x00E0 | .ret => 0x00EE | .jp _ => 0x1000 | .call _ => 0x2000
  | .seImm _ _ => 0x3000 | .sneImm _ _ => 0x4000 | .seReg _ _ => 0x5000 | .ldImm _ _ => 0x6000 | .addImm _ _ => 0x7000
  | .ldReg _ _ => 0x8000 | .orReg _ _ => 0x8001 | .andReg _ _ => 0x8002 | .xorReg _ _ => 0x8003 | .addReg _ _ => 0x8004
  | .subReg _ _ => 0x8005 | .shr _ _ => 0x8006 | .subn _ _ => 0x8007 | .shl _ _ => 0x800E | .sneReg _ _ => 0x9000
  | .ldI _ => 0xA000 | .jpV0 _ => 0xB000 | .rnd _ _ => 0xC000 | .drw _ _ _ => 0xD000
  | .skp _ => 0xE09E | .sknp _ => 0xE0A1 | .ldVxDt _ => 0xF007 | .ldVxK _ => 0xF00A | .ldDtVx _ => 0xF015
  | .ldStVx _ => 0xF018 | .addI _ => 0xF01E | .ldF _ => 0xF029 | .ldB _ => 0xF033 | .storeRegs _ => 0xF055
  | .loadRegs _ => 0xF065 | .unmatched _ => 0x0000

/-- The mask of the row of R78; the table's last row has mask 0. -/
def rowMask : Instr → Word
  | .cls | .ret => 0xF0FF
  | .jp _ | .call _ | .ldI _ | .jpV0 _ => 0xF000
  | .seImm _ _ | .sneImm _ _ | .ldImm _ _ | .addImm _ _ | .rnd _ _ => 0xF000
  | .seReg _ _ | .sneReg _ _ => 0xF000
  | .ldReg _ _ | .orReg _ _ | .andReg _ _ | .xorReg _ _ | .addReg _ _ | .subReg _ _ => 0xF00F
  | .shr _ _ | .subn _ _ | .shl _ _ => 0xF00F
  | .drw _ _ _ => 0xF000
  | .skp _ | .sknp _ | .ldVxDt _ | .ldVxK _ | .ldDtVx _ | .ldStVx _ | .addI _ | .ldF _ | .ldB _ => 0xF0FF
  | .storeRegs _ | .loadRegs _ => 0xF0FF
  | .unmatched _ => 0x0000

/-- The canonical word of the instruction lies in its row. -/
def Statement (i : Instr) : Prop := encode i &&& rowMask i = rowMatch i

theorem cls : Statement .cls := rfl
theorem ret : Statement .ret := rfl
theorem jp (nnn : Addr12) : Statement (.jp nnn) := (mask_encNNN 0x1 nnn).trans rfl
theorem call (nnn : Addr12) : Statement (.call nnn) := (mask_encNNN 0x2 nnn).trans rfl
theorem seImm (x : RegIx) (nn : Byte) : Statement (.seImm x nn) := (mask_encXNN_op 0x3 x nn).trans rfl
theorem sneImm (x : RegIx) (nn : Byte) : Statement (.sneImm x nn) := (mask_encXNN_op 0x4 x nn).trans rfl
theorem seReg (x y : RegIx) : Statement (.seReg x y) := (mask_encXYN_op 0x5 x y 0x0).trans rfl
theorem ldImm (x : RegIx) (nn : Byte) : Statement (.ldImm x nn) := (mask_encXNN_op 0x6 x nn).trans rfl
theorem addImm (x : RegIx) (nn : Byte) : Statement (.addImm x nn) := (mask_encXNN_op 0x7 x nn).trans rfl
theorem ldReg (x y : RegIx) : Statement (.ldReg x y) := (mask_encXYN_sub 0x8 x y 0x0).trans rfl
theorem orReg (x y : RegIx) : Statement (.orReg x y) := (mask_encXYN_sub 0x8 x y 0x1).trans rfl
theorem andReg (x y : RegIx) : Statement (.andReg x y) := (mask_encXYN_sub 0x8 x y 0x2).trans rfl
theorem xorReg (x y : RegIx) : Statement (.xorReg x y) := (mask_encXYN_sub 0x8 x y 0x3).trans rfl
theorem addReg (x y : RegIx) : Statement (.addReg x y) := (mask_encXYN_sub 0x8 x y 0x4).trans rfl
theorem subReg (x y : RegIx) : Statement (.subReg x y) := (mask_encXYN_sub 0x8 x y 0x5).trans rfl
theorem shr (x y : RegIx) : Statement (.shr x y) := (mask_encXYN_sub 0x8 x y 0x6).trans rfl
theorem subn (x y : RegIx) : Statement (.subn x y) := (mask_encXYN_sub 0x8 x y 0x7).trans rfl
theorem shl (x y : RegIx) : Statement (.shl x y) := (mask_encXYN_sub 0x8 x y 0xE).trans rfl
theorem sneReg (x y : RegIx) : Statement (.sneReg x y) := (mask_encXYN_op 0x9 x y 0x0).trans rfl
theorem ldI (nnn : Addr12) : Statement (.ldI nnn) := (mask_encNNN 0xA nnn).trans rfl
theorem jpV0 (nnn : Addr12) : Statement (.jpV0 nnn) := (mask_encNNN 0xB nnn).trans rfl
theorem rnd (x : RegIx) (nn : Byte) : Statement (.rnd x nn) := (mask_encXNN_op 0xC x nn).trans rfl
theorem drw (x y : RegIx) (n : Nibble) : Statement (.drw x y n) := (mask_encXYN_op 0xD x y n).trans rfl
theorem skp (x : RegIx) : Statement (.skp x) := (mask_encXNN_sub 0xE x 0x9E).trans rfl
theorem sknp (x : RegIx) : Statement (.sknp x) := (mask_encXNN_sub 0xE x 0xA1).trans rfl
theorem ldVxDt (x : RegIx) : Statement (.ldVxDt x) := (mask_encXNN_sub 0xF x 0x07).trans rfl
theorem ldVxK (x : RegIx) : Statement (.ldVxK x) := (mask_encXNN_sub 0xF x 0x0A).trans rfl
theorem ldDtVx (x : RegIx) : Statement (.ldDtVx x) := (mask_encXNN_sub 0xF x 0x15).trans rfl
theorem ldStVx (x : RegIx) : Statement (.ldStVx x) := (mask_encXNN_sub 0xF x 0x18).trans rfl
theorem addI (x : RegIx) : Statement (.addI x) := (mask_encXNN_sub 0xF x 0x1E).trans rfl
theorem ldF (x : RegIx) : Statement (.ldF x) := (mask_encXNN_sub 0xF x 0x29).trans rfl
theorem ldB (x : RegIx) : Statement (.ldB x) := (mask_encXNN_sub 0xF x 0x33).trans rfl
theorem storeRegs (x : RegIx) : Statement (.storeRegs x) := (mask_encXNN_sub 0xF x 0x55).trans rfl
theorem loadRegs (x : RegIx) : Statement (.loadRegs x) := (mask_encXNN_sub 0xF x 0x65).trans rfl
theorem unmatched (w : Word) : Statement (.unmatched w) := BitVec.and_zero

end Sys2Proof.Laws.Row
end

