-- ==== Sys2Proof/Tests/Slice0.lean ====
section
/-! SUPPORT. Tests. Expected results come from spec/: the words are written out from the encodings of spec/30_encoding.md R73 and R78, the
one-step tests from the vectors of spec/95_test_vectors.md (each names its vector). Last, for every statement with hypotheses, states
and operands that meet them. -/

open Sys2Proof Sys2Proof.Machine Sys2Proof.Claims

namespace Sys2Proof.Tests

/-! ### Small states -/

/-- An input with no time elapsed, no key held and RND = 0. -/
def idle : Input := ⟨0, 0x0000#16, 0x00#8⟩

/-- The reset state before an idle iteration. -/
def start : State := { State.reset with inputs := [idle] }

/-- `start` with the listed registers set. -/
def regs (l : List (RegIx × Byte)) : State := l.foldl (fun s p => s.setV p.1 p.2) start

/-- The state after one step. -/
def stepped (s : State) : State :=
  match step s with
  | .next t => t
  | .fault _ => s
  | .refused _ => s

/-- The state after one step that runs the word `w` at PC. -/
def ran (s : State) (w : Nat) : State := stepped (s.withFetchWord 16 w)

/-- The state after one instruction. -/
def after (i : Instr) (s : State) : State :=
  match exec i s with
  | .next t => t
  | .fault _ => s
  | .refused _ => s

/-- `s` with the bytes `bs` from `a` upwards. -/
def holding (s : State) (a : Nat) (bs : List Byte) : State := { s with mem := s.mem.setBytes a bs }

/-- The cause in RUN. -/
def cause (s : State) : Option Fault :=
  match s.run with
  | .running => none
  | .faulted r => some r.cause

/-- The info in RUN. -/
def info (s : State) : Option Nat :=
  match s.run with
  | .running => none
  | .faulted r => r.info

/-! ### Well-formedness: the one check is on an unmatched word (spec/30_encoding.md R79) -/

theorem test_wf_refuses_opcode_0 : (Instr.unmatched 0x00E0#16).wf = false ∧ (Instr.unmatched 0x05EE#16).wf = false := by decide
theorem test_wf_refuses_opcodes_1_to_7 : (Instr.unmatched 0x1234#16).wf = false ∧ (Instr.unmatched 0x5AB3#16).wf = false := by decide
theorem test_wf_refuses_opcode_8 : (Instr.unmatched 0x8120#16).wf = false ∧ (Instr.unmatched 0x812E#16).wf = false := by decide
theorem test_wf_refuses_opcodes_9_to_D : (Instr.unmatched 0x9AB1#16).wf = false ∧ (Instr.unmatched 0xD010#16).wf = false := by decide
theorem test_wf_refuses_opcode_E : (Instr.unmatched 0xE59E#16).wf = false ∧ (Instr.unmatched 0xE5A1#16).wf = false := by decide
theorem test_wf_refuses_opcode_F : (Instr.unmatched 0xF565#16).wf = false ∧ (Instr.unmatched 0xF507#16).wf = false := by decide
theorem test_wf_accepts : (Instr.unmatched 0x0123#16).wf = true ∧ (Instr.unmatched 0x800F#16).wf = true ∧
    (Instr.unmatched 0xE09F#16).wf = true ∧ (Instr.unmatched 0xF0FF#16).wf = true ∧ (Instr.drw 0xF 0xF 0x0).wf = true := by decide
theorem test_wf_strict : (Instr.unmatched 0x01EE#16).wfWith true = true ∧ (Instr.unmatched 0x5AB3#16).wfWith true = true ∧
    (Instr.unmatched 0x00EE#16).wfWith true = false ∧ (Instr.unmatched 0x5AB0#16).wfWith true = false := by decide

/-! ### Decoding: one word per constructor, its bits oooo xxxx yyyy nnnn as R73 lays them out -/

theorem test_decode_cls : decode 0b0000000011100000#16 = .cls ∧ encode (.cls) = 0b0000000011100000#16 := by decide
theorem test_decode_ret : decode 0b0000000011101110#16 = .ret ∧ encode (.ret) = 0b0000000011101110#16 := by decide
theorem test_decode_jp : decode 0b0001101010111100#16 = .jp 0xABC ∧ encode (.jp 0xABC) = 0b0001101010111100#16 := by decide
theorem test_decode_call : decode 0b0010001000010000#16 = .call 0x210 ∧ encode (.call 0x210) = 0b0010001000010000#16 := by decide
theorem test_decode_seImm : decode 0b0011010100010010#16 = .seImm 0x5 0x12 ∧ encode (.seImm 0x5 0x12) = 0b0011010100010010#16 := by decide
theorem test_decode_sneImm : decode 0b0100011010100001#16 = .sneImm 0x6 0xA1 ∧ encode (.sneImm 0x6 0xA1) = 0b0100011010100001#16 := by decide
theorem test_decode_seReg : decode 0b0101101010110000#16 = .seReg 0xA 0xB ∧ encode (.seReg 0xA 0xB) = 0b0101101010110000#16 := by decide
theorem test_decode_ldImm : decode 0b0110101010011100#16 = .ldImm 0xA 0x9C ∧ encode (.ldImm 0xA 0x9C) = 0b0110101010011100#16 := by decide
theorem test_decode_addImm : decode 0b0111001110000001#16 = .addImm 0x3 0x81 ∧ encode (.addImm 0x3 0x81) = 0b0111001110000001#16 := by decide
theorem test_decode_ldReg : decode 0b1000000100100000#16 = .ldReg 0x1 0x2 ∧ encode (.ldReg 0x1 0x2) = 0b1000000100100000#16 := by decide
theorem test_decode_orReg : decode 0b1000001101000001#16 = .orReg 0x3 0x4 ∧ encode (.orReg 0x3 0x4) = 0b1000001101000001#16 := by decide
theorem test_decode_andReg : decode 0b1000010101100010#16 = .andReg 0x5 0x6 ∧ encode (.andReg 0x5 0x6) = 0b1000010101100010#16 := by decide
theorem test_decode_xorReg : decode 0b1000011110000011#16 = .xorReg 0x7 0x8 ∧ encode (.xorReg 0x7 0x8) = 0b1000011110000011#16 := by decide
theorem test_decode_addReg : decode 0b1000000100100100#16 = .addReg 0x1 0x2 ∧ encode (.addReg 0x1 0x2) = 0b1000000100100100#16 := by decide
theorem test_decode_subReg : decode 0b1000100110100101#16 = .subReg 0x9 0xA ∧ encode (.subReg 0x9 0xA) = 0b1000100110100101#16 := by decide
theorem test_decode_shr : decode 0b1000101111000110#16 = .shr 0xB 0xC ∧ encode (.shr 0xB 0xC) = 0b1000101111000110#16 := by decide
theorem test_decode_subn : decode 0b1000110111100111#16 = .subn 0xD 0xE ∧ encode (.subn 0xD 0xE) = 0b1000110111100111#16 := by decide
theorem test_decode_shl : decode 0b1000111100011110#16 = .shl 0xF 0x1 ∧ encode (.shl 0xF 0x1) = 0b1000111100011110#16 := by decide
theorem test_decode_sneReg : decode 0b1001101010110000#16 = .sneReg 0xA 0xB ∧ encode (.sneReg 0xA 0xB) = 0b1001101010110000#16 := by decide
theorem test_decode_ldI : decode 0b1010001001010000#16 = .ldI 0x250 ∧ encode (.ldI 0x250) = 0b1010001001010000#16 := by decide
theorem test_decode_jpV0 : decode 0b1011001100000000#16 = .jpV0 0x300 ∧ encode (.jpV0 0x300) = 0b1011001100000000#16 := by decide
theorem test_decode_rnd : decode 0b1100001100001111#16 = .rnd 0x3 0x0F ∧ encode (.rnd 0x3 0x0F) = 0b1100001100001111#16 := by decide
theorem test_decode_drw : decode 0b1101000000010101#16 = .drw 0x0 0x1 0x5 ∧ encode (.drw 0x0 0x1 0x5) = 0b1101000000010101#16 := by decide
theorem test_decode_skp : decode 0b1110010110011110#16 = .skp 0x5 ∧ encode (.skp 0x5) = 0b1110010110011110#16 := by decide
theorem test_decode_sknp : decode 0b1110010110100001#16 = .sknp 0x5 ∧ encode (.sknp 0x5) = 0b1110010110100001#16 := by decide
theorem test_decode_ldVxDt : decode 0b1111101100000111#16 = .ldVxDt 0xB ∧ encode (.ldVxDt 0xB) = 0b1111101100000111#16 := by decide
theorem test_decode_ldVxK : decode 0b1111001100001010#16 = .ldVxK 0x3 ∧ encode (.ldVxK 0x3) = 0b1111001100001010#16 := by decide
theorem test_decode_ldDtVx : decode 0b1111101000010101#16 = .ldDtVx 0xA ∧ encode (.ldDtVx 0xA) = 0b1111101000010101#16 := by decide
theorem test_decode_ldStVx : decode 0b1111000100011000#16 = .ldStVx 0x1 ∧ encode (.ldStVx 0x1) = 0b1111000100011000#16 := by decide
theorem test_decode_addI : decode 0b1111001000011110#16 = .addI 0x2 ∧ encode (.addI 0x2) = 0b1111001000011110#16 := by decide
theorem test_decode_ldF : decode 0b1111001000101001#16 = .ldF 0x2 ∧ encode (.ldF 0x2) = 0b1111001000101001#16 := by decide
theorem test_decode_ldB : decode 0b1111101000110011#16 = .ldB 0xA ∧ encode (.ldB 0xA) = 0b1111101000110011#16 := by decide
theorem test_decode_storeRegs : decode 0b1111000101010101#16 = .storeRegs 0x1 ∧ encode (.storeRegs 0x1) = 0b1111000101010101#16 := by decide
theorem test_decode_loadRegs : decode 0b1111001001100101#16 = .loadRegs 0x2 ∧ encode (.loadRegs 0x2) = 0b1111001001100101#16 := by decide
theorem test_decode_unmatched : decode 0b1000000000011000#16 = .unmatched 0x8018 ∧ encode (.unmatched 0x8018) = 0b1000000000011000#16 := by decide

/-- spec/95_test_vectors.md U-1 to U-8, and the aliases of spec/30_encoding.md R81. -/
theorem test_decode_aliases : decode 0x01E0#16 = .cls ∧ decode 0x01EE#16 = .ret ∧ decode 0x5AB3#16 = .seReg 0xA 0xB ∧
    decode 0x9AB1#16 = .sneReg 0xA 0xB := by decide
theorem test_decode_aliases_strict : decodeWith true 0x01E0#16 = .unmatched 0x01E0 ∧ decodeWith true 0x01EE#16 = .unmatched 0x01EE ∧
    decodeWith true 0x5AB3#16 = .unmatched 0x5AB3 ∧ decodeWith true 0x9AB1#16 = .unmatched 0x9AB1 := by decide
theorem test_decode_strict_keeps_the_spellings : decodeWith true 0x00E0#16 = .cls ∧ decodeWith true 0x00EE#16 = .ret ∧
    decodeWith true 0x5AB0#16 = .seReg 0xA 0xB ∧ decodeWith true 0x9AB0#16 = .sneReg 0xA 0xB := by decide
theorem test_decode_unmatched_words : decode 0x0000#16 = .unmatched 0x0000 ∧ decode 0x0123#16 = .unmatched 0x0123 ∧
    decode 0xE09F#16 = .unmatched 0xE09F ∧ decode 0xF0FF#16 = .unmatched 0xF0FF := by decide
theorem test_decodeBytes : decodeBytes [0x6A, 0x9C, 0x77] = .ok (.ldImm 0xA 0x9C, [0x77]) := rfl
theorem test_decodeBytes_truncated : decodeBytes [0x6A] = .error .truncated := rfl
theorem test_decodeTableWord : decodeTableWord 16 0x6A9C = some (.ldImm 0xA 0x9C) ∧ decodeTableWord 8 0xE0 = some .cls := by decide

/-! ### One step of each instruction -/

/-- G-1: the pixels go off, present, VF unchanged. -/
theorem test_cls : let t := ran { regs [(0xF, 0x55)] with fb := Framebuffer.clear.flip 5 3 } 0x00E0
    (t.fb.pixel 5 3, t.present, t.getV 0xF, t.pc) = (false, true, 0x55, 0x202) := by decide
/-- F-4. -/
theorem test_ret : let t := ran { start with pc := 0x212, sp := 1, stack := start.stack.set 0 0x206 } 0x00EE
    (t.pc, t.sp.val) = (0x206, 0) := by decide
/-- F-5 and P6 (a): the record names the address and the word. -/
theorem test_ret_underflow : let t := ran start 0x00EE
    t.pc = 0x200 ∧ t.run = .faulted ⟨.stackUnderflow, some 0x200, some 0x00EE, none⟩ := by decide
/-- F-1. -/
theorem test_jp : (ran start 0x1ABC).pc = 0xABC := by decide
/-- F-19. -/
theorem test_jp_self : (ran start 0x1200).pc = 0x200 := by decide
/-- F-2. -/
theorem test_call : let t := ran { start with pc := 0x204 } 0x2210
    (t.pc, t.sp.val, t.stack[0]) = (0x210, 1, 0x206) := by decide
/-- F-3 and P6 (c). -/
theorem test_call_overflow : let t := ran { start with pc := 0x204, sp := 16 } 0x2210
    t.pc = 0x204 ∧ t.sp.val = 16 ∧ t.run = .faulted ⟨.stackOverflow, some 0x204, some 0x2210, none⟩ := by decide
/-- F-6. -/
theorem test_seImm : (ran (regs [(0, 0x12)]) 0x3012).pc = 0x204 ∧ (ran (regs [(0, 0x12)]) 0x3013).pc = 0x202 := by decide
/-- F-15: the skip past the end of memory, and the fetch that then faults. -/
theorem test_seImm_past_memory : let t := ran { start with pc := 0xFFC } 0x3000
    t.pc = 0x1000 ∧ cause t = none ∧ cause (stepped t) = some .fetchOutOfRange := by decide
/-- F-7. -/
theorem test_sneImm : (ran (regs [(0, 0x12)]) 0x4012).pc = 0x202 ∧ (ran (regs [(0, 0x12)]) 0x4013).pc = 0x204 := by decide
/-- F-8, F-9. -/
theorem test_seReg : (ran (regs [(0, 7), (1, 7)]) 0x5010).pc = 0x204 ∧ (ran (regs [(0, 7), (1, 8)]) 0x5010).pc = 0x202 := by decide
/-- F-10: the alias. -/
theorem test_seReg_alias : (ran (regs [(0, 7), (1, 7)]) 0x5011).pc = 0x204 := by decide
/-- F-11, F-12. -/
theorem test_sneReg : (ran (regs [(0, 7), (1, 8)]) 0x9010).pc = 0x204 ∧ (ran (regs [(0, 7)]) 0x9000).pc = 0x202 := by decide
/-- A-1. -/
theorem test_ldImm : let t := ran (regs [(0xF, 0x55)]) 0x6A9C
    (t.getV 0xA, t.getV 0xF, t.pc) = (0x9C, 0x55, 0x202) := by decide
/-- F-18: an odd address. -/
theorem test_ldImm_odd : let t := ran { start with pc := 0x201 } 0x6005
    (t.getV 0, t.pc) = (5, 0x203) := by decide
/-- A-2: no carry flag. -/
theorem test_addImm : let t := ran (regs [(3, 0xFF), (0xF, 0x55)]) 0x7301
    (t.getV 3, t.getV 0xF) = (0x00, 0x55) := by decide
/-- A-3. -/
theorem test_addImm_vf : (ran (regs [(0xF, 0xFF)]) 0x7F01).getV 0xF = 0x00 := by decide
/-- A-4. -/
theorem test_ldReg : (ran (regs [(1, 0x42)]) 0x8010).getV 0 = 0x42 := by decide
/-- A-5. -/
theorem test_orReg : let t := ran (regs [(0, 0xF0), (1, 0x3C), (0xF, 0x55)]) 0x8011
    (t.getV 0, t.getV 0xF) = (0xFC, 0x55) := by decide
/-- A-5. -/
theorem test_andReg : let t := ran (regs [(0, 0xF0), (1, 0x3C), (0xF, 0x55)]) 0x8012
    (t.getV 0, t.getV 0xF) = (0x30, 0x55) := by decide
/-- A-5. -/
theorem test_xorReg : let t := ran (regs [(0, 0xF0), (1, 0x3C), (0xF, 0x55)]) 0x8013
    (t.getV 0, t.getV 0xF) = (0xCC, 0x55) := by decide
/-- A-6: a source that is the destination. -/
theorem test_xorReg_self : (ran (regs [(2, 0x5A)]) 0x8223).getV 2 = 0x00 := by decide
/-- A-7, A-8. -/
theorem test_addReg : let t := ran (regs [(0, 0xFF), (1, 0x01)]) 0x8014
    let u := ran (regs [(0, 0x7F), (1, 0x80), (0xF, 0x55)]) 0x8014
    (t.getV 0, t.getV 0xF, u.getV 0, u.getV 0xF) = (0x00, 1, 0xFF, 0) := by decide
/-- A-9, A-11: VF as destination and as source. -/
theorem test_addReg_vf : let t := ran (regs [(0xF, 0x80), (1, 0x80)]) 0x8F14
    let u := ran (regs [(0, 0x10), (0xF, 0xF0)]) 0x80F4
    (t.getV 0xF, u.getV 0, u.getV 0xF) = (1, 0x00, 1) := by decide
/-- A-13, A-14. -/
theorem test_subReg : let t := ran (regs [(0, 5), (1, 5)]) 0x8015
    let u := ran (regs [(0, 4), (1, 5)]) 0x8015
    (t.getV 0, t.getV 0xF, u.getV 0, u.getV 0xF) = (0x00, 1, 0xFF, 0) := by decide
/-- A-17, A-18. -/
theorem test_subReg_vf : let t := ran (regs [(0xF, 3), (1, 1)]) 0x8F15
    let u := ran (regs [(0, 0x10), (0xF, 0x20)]) 0x80F5
    (t.getV 0xF, u.getV 0, u.getV 0xF) = (1, 0xF0, 0) := by decide
/-- A-20, A-21: VY is not read. -/
theorem test_shr : let t := ran (regs [(0, 0x05), (1, 0xFF)]) 0x8016
    let u := ran (regs [(0, 0x04), (0xF, 0x55)]) 0x8016
    (t.getV 0, t.getV 0xF, u.getV 0, u.getV 0xF) = (0x02, 1, 0x02, 0) := by decide
/-- A-23. -/
theorem test_shr_vf : (ran (regs [(0xF, 0x02)]) 0x8F06).getV 0xF = 0 := by decide
/-- A-25, A-26. -/
theorem test_subn : let t := ran (regs [(0, 3), (1, 5)]) 0x8017
    let u := ran (regs [(0, 5), (1, 3)]) 0x8017
    (t.getV 0, t.getV 0xF, u.getV 0, u.getV 0xF) = (0x02, 1, 0xFE, 0) := by decide
/-- A-28. -/
theorem test_subn_vf : (ran (regs [(0xF, 0x05), (1, 0x02)]) 0x8F17).getV 0xF = 0 := by decide
/-- A-29, A-30. -/
theorem test_shl : let t := ran (regs [(0, 0x81)]) 0x800E
    let u := ran (regs [(0, 0x40), (0xF, 0x55)]) 0x800E
    (t.getV 0, t.getV 0xF, u.getV 0, u.getV 0xF) = (0x02, 1, 0x80, 0) := by decide
/-- A-31. -/
theorem test_shl_vf : (ran (regs [(0xF, 0x40)]) 0x8F0E).getV 0xF = 0 := by decide
/-- M-1. -/
theorem test_ldI : (ran start 0xA250).i = 0x250 := by decide
/-- F-13. -/
theorem test_jpV0 : (ran (regs [(0, 0x10)]) 0xB300).pc = 0x310 := by decide
/-- F-14. -/
theorem test_jpV0_past_memory : let t := ran (regs [(0, 0xFF)]) 0xBFFF
    t.pc = 0x10FE ∧ (stepped t).run = .faulted ⟨.fetchOutOfRange, some 0x10FE, none, some 0x10FE⟩ := by decide
/-- A-33. -/
theorem test_rnd : (ran { start with inputs := [⟨0, 0, 0xAB⟩] } 0xC30F).getV 3 = 0x0B := by decide
/-- G-4: the start wraps, then the sprite is clipped at the corner. -/
theorem test_drw : let t := ran (holding { regs [(0, 0xFF), (1, 0xFF), (0xF, 0x55)] with i := 0x300 } 0x300 [0xFF]) 0xD011
    (t.fb.pixel 63 31, t.fb.pixel 0 31, t.fb.pixel 0 0, t.getV 0xF, t.present) = (true, false, false, 0, true) := by decide
/-- G-11: VF is the column and then the collision. -/
theorem test_drw_collision :
    let t := ran (holding { regs [(0xF, 10)] with i := 0x300, fb := Framebuffer.clear.flip 10 0 } 0x300 [0x80]) 0xDF11
    (t.fb.pixel 10 0, t.getV 0xF) = (false, 1) := by decide
/-- K-1. -/
theorem test_skp : (ran { regs [(0, 5)] with inputs := [⟨0, 0x0020, 0⟩] } 0xE09E).pc = 0x204 ∧
    (ran (regs [(0, 5)]) 0xE09E).pc = 0x202 := by decide
/-- K-3. -/
theorem test_skp_out_of_range : let t := ran (regs [(0, 0x10)]) 0xE09E
    t.pc = 0x200 ∧ t.run = .faulted ⟨.keyOutOfRange, some 0x200, some 0xE09E, some 0x10⟩ := by decide
/-- K-2. -/
theorem test_sknp : (ran { regs [(0, 5)] with inputs := [⟨0, 0x0020, 0⟩] } 0xE0A1).pc = 0x202 ∧
    (ran (regs [(0, 5)]) 0xE0A1).pc = 0x204 := by decide
/-- T-5: the integer part of half a unit. -/
theorem test_ldVxDt : (ran { regs [(0, 9)] with dt := 0x0080 } 0xF007).getV 0 = 0 := by decide
/-- T-4: the advance comes before the instruction. -/
theorem test_ldVxDt_after_advance : let t := ran { start with dt := 0x3C00, inputs := [⟨0x40, 0, 0⟩] } 0xF307
    (t.dt, t.getV 3) = (0x3BC0, 0x3B) := by decide
/-- K-7, first iteration: held keys are marked and the instruction is replayed. -/
theorem test_ldVxK_replay : let t := ran { start with inputs := [⟨0, 0x0088, 0⟩] } 0xF00A
    (t.shadow, t.pc, t.getV 0) = (0x0088, 0x200, 0) := by decide
/-- K-7, second iteration: the lowest released key completes and the later one stays marked. -/
theorem test_ldVxK_release : let t := ran { start with shadow := 0x0088 } 0xF00A
    (t.shadow, t.pc, t.getV 0) = (0x0080, 0x202, 3) := by decide
/-- T-9: the advance comes first, so the set value stands. -/
theorem test_ldDtVx : (ran { regs [(0, 9)] with inputs := [⟨0x100, 0, 0⟩] } 0xF015).dt = 9 * 2 ^ 8 := by decide
/-- T-6. -/
theorem test_ldStVx : let t := ran { regs [(1, 5)] with inputs := [idle, ⟨5 * 2 ^ 8, 0, 0⟩] } 0xF118
    t.st = 5 * 2 ^ 8 ∧ (stepped t).st = 0 := by decide
/-- T-2, T-3: F = 0, the fixed-rate timer. -/
theorem test_ldDtVx_fixed_rate : let t := State.setDelay (regs [(0, 60)]) 0 0
    (t.dt, (t.advanceTimers 25).dt, (t.advanceTimers 100).dt, ((t.advanceTimers 25).readDelay 0 1).getV 1) = (60, 35, 0, 35) := by decide
/-- M-3. -/
theorem test_addI : let t := ran { regs [(0, 1)] with i := 0xFFF } 0xF01E
    (t.i, t.getV 0xF) = (0x1000, 1) := by decide
/-- M-5, M-3 and M-6: the flag cleared, and the two parameters at their other values. -/
theorem test_addI_parameters : (ran { regs [(0xF, 5)] with i := 0x100 } 0xFF1E).getV 0xF = 0 ∧
    (State.addIndex { regs [(0xF, 5)] with i := 0x100 } false false 0xF).getV 0xF = 5 ∧
    (State.addIndex { regs [(0, 1)] with i := 0xFFF } true true 0).i = 0x000 ∧
    (State.addIndex { regs [(0, 2)] with i := 0xFFFF } false true 0).i = 0x0001 := by decide
/-- M-7. -/
theorem test_ldF : (ran (regs [(0, 0x1A)]) 0xF029).i = 0x082 ∧ (ran (regs [(0, 0x0F)]) 0xF029).i = 0x09B := by decide
/-- M-8. -/
theorem test_ldB : (ran { regs [(0, 156)] with i := 0x300 } 0xF033).mem.getBytes 0x300 3 = [1, 5, 6] := by decide
/-- M-9, M-10: the top of memory. -/
theorem test_ldB_top : (ran { regs [(0, 255)] with i := 0xFFD } 0xF033).mem.getBytes 0xFFD 3 = [2, 5, 5] ∧
    info (ran { regs [(0, 255)] with i := 0xFFE } 0xF033) = some 0x1000 ∧
    (ran { regs [(0, 255)] with i := 0xFFE } 0xF033).mem.getBytes 0xFFE 2 = [0, 0] := by decide
/-- M-11, M-19: the font is ordinary memory. -/
theorem test_storeRegs : let t := ran { regs [(0, 0xAA), (1, 0xBB)] with i := 0x300 } 0xF055
    let u := ran { start with i := 0x050 } 0xF055
    (t.mem.getBytes 0x300 2, t.i, u.mem.get 0x050) = ([0xAA, 0x00], 0x300, 0x00) := by decide
/-- M-15, M-16 and P6 (b). -/
theorem test_storeRegs_top : (ran { regs [(0, 1), (1, 2)] with i := 0xFFE } 0xF155).mem.getBytes 0xFFE 2 = [1, 2] ∧
    (ran { regs [(0, 1)] with i := 0xFFE } 0xF255).run = .faulted ⟨.dataOutOfRange, some 0x200, some 0xF255, some 0x1000⟩ := by
  decide
/-- M-13. -/
theorem test_loadRegs : let t := ran (holding { regs [(3, 9)] with i := 0x300 } 0x300 [1, 5, 6, 7]) 0xF265
    (t.getV 0, t.getV 1, t.getV 2, t.getV 3, t.i) = (1, 5, 6, 9, 0x300) := by decide
/-- M-17: no register is written. -/
theorem test_loadRegs_fault : let t := ran (holding { regs [(0, 9)] with i := 0xFF1 } 0xFF1 [1, 2]) 0xFF65
    (t.getV 0, cause t, info t) = (9, some .dataOutOfRange, some 0x1000) := by decide
/-- A-36. -/
theorem test_unmatched : let t := ran (regs [(0, 1), (1, 2)]) 0x8018
    (t.getV 0, t.pc, t.present) = (1, 0x202, false) := by decide
/-- F-17. -/
theorem test_fetch_past_memory : (stepped { start with pc := 0xFFF }).run =
    .faulted ⟨.fetchOutOfRange, some 0xFFF, none, some 0xFFF⟩ := by decide
/-- P6 (a): after a fault nothing changes. -/
theorem test_stopped : let t := ran start 0x00EE
    (stepped t).pc = 0x200 ∧ (stepped t).run = t.run := by decide
/-- P6 (d). -/
theorem test_load_overflow : (State.reset.load Config.fontTable (List.replicate 3585 0x60#8)).run =
    .faulted ⟨.loadOverflow, none, none, some 3585⟩ := by
  have h : (List.replicate 3585 0x60#8).length = 3585 := List.length_replicate
  rw [State.load, h]
  rfl
/-- The bytes of program P1 at 0x200. -/
theorem test_load : let t := start.load Config.fontTable [0x60, 0x00, 0x61, 0x05]
    (t.mem.getBytes 0x200 5, t.mem.get 0x050, t.pc) = ([0x60, 0x00, 0x61, 0x05, 0x00], 0xF0, 0x200) := by decide +kernel

/-! ### Witnesses: states and operands that meet the hypotheses of each statement -/

theorem witness_DecodeEncodeRoundTrip : (Instr.drw 0xF 0x0 0xF).wf = true ∧ (Instr.unmatched 0x0000#16).wf = true := by decide
theorem witness_DecodeFollowsOpcodeMap_selected : ∀ strict : Bool, ∀ r ∈ opcodeMap, r.mtch &&& r.maskFor strict = r.mtch := by decide
theorem witness_DecodeFollowsOpcodeMap_unselected : ∀ strict : Bool, ∀ r ∈ opcodeMap, 0x0000#16 &&& r.maskFor strict ≠ r.mtch := by
  decide
/-- The hypothesis of every `Encodes` in the statements: each row's match value is a word of the row. -/
theorem witness_Encodes : ∀ r ∈ opcodeMap, r.mtch &&& r.mask = r.mtch := by decide
theorem witness_UnmatchedWordsAreTheListedOnes : unmatchedWord false 0x0123#16 = true ∧ unmatchedWord true 0x01EE#16 = true ∧
    unmatchedWord false 0x01EE#16 = false := by decide

/-- A running block at the last address from which a word can be fetched. -/
def atTop : State := holding { start with pc := 0xFFE } 0xFFE [0x60, 0x01]

theorem witness_StepRunsDecodedInstruction : atTop.run = .running ∧ atTop.pc.toNat + 1 ≤ 0xFFF ∧
    decode (atTop.mem.get atTop.pc.toNat ++ atTop.mem.get (atTop.pc.toNat + 1)) = .ldImm 0x0 0x01 := by decide
theorem witness_UnmatchedWordIsNoOp : start.run = .running ∧ start.pc.toNat + 1 ≤ 0xFFF ∧
    0x0000#16 = start.mem.get start.pc.toNat ++ start.mem.get (start.pc.toNat + 1) ∧
    decode 0x0000#16 = .unmatched 0x0000#16 := by decide
theorem witness_FetchPastMemoryFaults : (State.setPc start 0xFFF).run = .running ∧ 0xFFF < (State.setPc start 0xFFF).pc.toNat + 1 := by
  decide

/-- A block that has faulted. -/
def stopped : State := ran start 0x00EE

theorem witness_StoppedBlockTakesNoStep : stopped.run = .faulted ⟨.stackUnderflow, some 0x200, some 0x00EE, none⟩ := by decide

/-- Both timers set, less than a unit on one of them, and a unit elapsed. -/
def ticking : State := { start with dt := 0x3C00, st := 0x0080, inputs := [⟨0x100, 0x0000#16, 0x00#8⟩] }

theorem witness_TimersCountDownEachIteration : ticking.run = .running ∧ step ticking = .next (stepped ticking) ∧
    (∀ x, decode (ticking.mem.get ticking.pc.toNat ++ ticking.mem.get (ticking.pc.toNat + 1)) ≠ .ldDtVx x) ∧
    (∀ x, decode (ticking.mem.get ticking.pc.toNat ++ ticking.mem.get (ticking.pc.toNat + 1)) ≠ .ldStVx x) ∧
    ticking.dt > ticking.input.elapsed ∧ ¬ ticking.st > ticking.input.elapsed :=
  ⟨rfl, rfl, by decide, by decide, by decide, by decide⟩

theorem witness_StepKeepsMemoryCanonical : MemoryCanonical atTop ∧ step atTop = .next (stepped atTop) :=
  ⟨by unfold MemoryCanonical; decide, rfl⟩

/-- A full stack of return addresses at their bound, and PC at its bound. -/
def deep : State := { start with pc := 0x10FE, sp := 16, stack := Vector.replicate Config.stackDepth 0x1000#16 }

theorem witness_StepKeepsControlBounded : ControlBounded deep ∧ step deep = .next (stepped deep) :=
  ⟨by unfold ControlBounded; decide, rfl⟩
theorem witness_StepKeepsTimersBounded : TimersBounded ticking ∧ step ticking = .next (stepped ticking) :=
  ⟨by unfold TimersBounded; decide, rfl⟩
theorem witness_StepKeepsFaultRecorded : FaultRecorded stopped ∧ step stopped = .next (stepped stopped) := by
  refine ⟨fun r h => ?_, rfl⟩
  have e : stopped.run = .faulted ⟨.stackUnderflow, some 0x200, some 0x00EE, none⟩ := by decide
  rw [e] at h
  cases h
  decide
theorem witness_ResetAndLoadMeetInvariants : (List.replicate 0xE00 0xFF#8).length ≤ 0xE00 := List.length_replicate.le

/-! Faults: one witness per cause and instruction, at the boundary of its condition. -/

theorem witness_fault_ret : start.run = .running ∧ exec .ret start = .next (after .ret start) ∧
    (after .ret start).run = .faulted ⟨.stackUnderflow, some 0x1FE, some 0x0000, none⟩ := ⟨rfl, rfl, by decide⟩
theorem witness_fault_call : deep.run = .running ∧ exec (.call 0x210) deep = .next (after (.call 0x210) deep) ∧
    (after (.call 0x210) deep).run = .faulted ⟨.stackOverflow, some 0x10FC, none, none⟩ := ⟨rfl, rfl, by decide⟩
theorem witness_fault_keys : exec (.skp 0) (regs [(0, 0x10)]) = .next (after (.skp 0) (regs [(0, 0x10)])) ∧
    cause (after (.skp 0) (regs [(0, 0x10)])) = some .keyOutOfRange ∧
    exec (.sknp 0) (regs [(0, 0x10)]) = .next (after (.sknp 0) (regs [(0, 0x10)])) ∧
    cause (after (.sknp 0) (regs [(0, 0x10)])) = some .keyOutOfRange := ⟨rfl, by decide, rfl, by decide⟩

/-- The index register at an address. -/
def index (a : Word) : State := { start with i := a }

theorem witness_fault_data : cause (after (.ldB 0) (index 0xFFE)) = some .dataOutOfRange ∧
    cause (after (.storeRegs 0xF) (index 0xFF1)) = some .dataOutOfRange ∧
    cause (after (.loadRegs 0xF) (index 0xFF1)) = some .dataOutOfRange ∧
    cause (after (.drw 0 1 2) (index 0xFFF)) = some .dataOutOfRange := by decide
theorem witness_FaultingStepIsPrecise : (State.setPc start 0xFFF).run = .running ∧
    step (State.setPc start 0xFFF) = .next (stepped (State.setPc start 0xFFF)) ∧
    cause (stepped (State.setPc start 0xFFF)) = some .fetchOutOfRange ∧
    (start.withFetchWord 16 0x00EE).run = .running ∧ step (start.withFetchWord 16 0x00EE) = .next stopped ∧
    cause stopped = some .stackUnderflow := ⟨rfl, rfl, by decide, rfl, rfl, by decide⟩

/-! Frames. -/

theorem witness_OnlyListedInstructionsWriteRegisters : exec (.addReg 0x1 0x2) start = .next (after (.addReg 0x1 0x2) start) ∧
    writesReg (.addReg 0x1 0x2) 0x2 = false := ⟨rfl, rfl⟩
theorem witness_OnlyStoresWriteMemory : exec (.ldB 0x0) (index 0xFFD) = .next (after (.ldB 0x0) (index 0xFFD)) ∧
    ¬ ((index 0xFFD).i.toNat ≤ 0xFFC ∧ 0xFFC < (index 0xFFD).i.toNat + storedBytes (.ldB 0x0)) ∧
    ¬ ((index 0xFFD).i.toNat ≤ 0x1000 ∧ 0x1000 < (index 0xFFD).i.toNat + storedBytes (.ldB 0x0)) := ⟨rfl, by decide, by decide⟩
theorem witness_OnlyClearAndDrawTouchTheDisplay : exec (.ldImm 0x0 0x01) start = .next (after (.ldImm 0x0 0x01) start) ∧
    touchesDisplay (.ldImm 0x0 0x01) = false ∧ step atTop = .next (stepped atTop) := ⟨rfl, rfl, rfl⟩
theorem witness_OnlyCallAndReturnTouchTheStack : exec (.call 0x210) start = .next (after (.call 0x210) start) ∧
    exec .ret start = .next (after .ret start) ∧ exec .cls start = .next (after .cls start) := ⟨rfl, rfl, rfl⟩
theorem witness_SpecialRegistersFrame : exec (.ldI 0x250) start = .next (after (.ldI 0x250) start) ∧
    exec (.ldDtVx 0x0) start = .next (after (.ldDtVx 0x0) start) ∧ exec (.ldVxK 0x0) start = .next (after (.ldVxK 0x0) start) :=
  ⟨rfl, rfl, rfl⟩

/-- One return address on the stack. -/
def called : State := { start with sp := 1, stack := start.stack.set 0 0x206 }

theorem witness_ProgramCounterAfterInstruction : exec .ret called = .next (after .ret called) ∧ (after .ret called).run = .running ∧
    exec (.ldVxK 0x0) start = .next (after (.ldVxK 0x0) start) ∧ (after (.ldVxK 0x0) start).run = .running :=
  ⟨rfl, rfl, rfl, by decide⟩
theorem witness_InputsReachOnlyTheirReaders : exec (.skp 0x0) start = .next (after (.skp 0x0) start) ∧
    ({ start with inputs := [⟨7, 0x0000#16, 0x99#8⟩], iter := 3 } : State).input.keys = start.input.keys ∧
    exec (.rnd 0x0 0xFF) start = .next (after (.rnd 0x0 0xFF) start) ∧
    ({ start with inputs := [⟨7, 0xFFFF#16, 0x00#8⟩], iter := 3 } : State).input.rnd = start.input.rnd := ⟨rfl, rfl, rfl, rfl⟩
theorem witness_SoundTimerAndShadowAreNotRead : exec (.ldStVx 0x0) start = .next (after (.ldStVx 0x0) start) ∧
    exec (.skp 0x0) start = .next (after (.skp 0x0) start) ∧ ∀ x, Instr.skp 0x0 ≠ .ldVxK x :=
  ⟨rfl, rfl, fun _ h => by cases h⟩

/-! Instructions. -/

theorem witness_JumpSetsPc_self : (start.withFetchWord 16 0x1200).run = .running ∧
    (start.withFetchWord 16 0x1200).pc = (0x200#12).setWidth 16 ∧ (start.withFetchWord 16 0x1200).pc.toNat + 1 ≤ 0xFFF ∧
    decode ((start.withFetchWord 16 0x1200).mem.get 0x200 ++ (start.withFetchWord 16 0x1200).mem.get 0x201) = .jp 0x200 := by decide
theorem witness_JumpSetsPc_last : start.run = .running ∧ exec (.jp 0xFFF#12) start = .next (after (.jp 0xFFF#12) start) := ⟨rfl, rfl⟩
theorem witness_CallPushesReturnAddress : { start with sp := 15 }.sp.val < 16 ∧ deep.sp.val = 16 := by decide
theorem witness_ReturnPopsIntoPc : called.sp.val = (0 : Fin Config.stackDepth).val + 1 ∧
    deep.sp.val = (15 : Fin Config.stackDepth).val + 1 ∧ start.sp.val = 0 := by decide
theorem witness_ReturnUndoesCall : start.sp.val < 16 ∧ exec (.call 0x210) start = .next (after (.call 0x210) start) ∧
    ({ start with stack := (after (.call 0x210) start).stack, sp := (after (.call 0x210) start).sp, pc := 0x212 } : State).stack =
      (after (.call 0x210) start).stack ∧
    ({ start with stack := (after (.call 0x210) start).stack, sp := (after (.call 0x210) start).sp, pc := 0x212 } : State).sp =
      (after (.call 0x210) start).sp := ⟨by decide, rfl, rfl, rfl⟩

/-- A state after the fetch of a word at 0xFFC. -/
def lastSkip : State := { start with pc := 0xFFE }

theorem witness_SkipOnImmediate : ControlBounded lastSkip ∧ lastSkip.run = .running ∧ 0xFFE ≤ lastSkip.pc.toNat ∧
    (lastSkip.getV 0 = 0x00#8 ∧ exec (.seImm 0 0x00) lastSkip = .next (after (.seImm 0 0x00) lastSkip)) ∧
    (lastSkip.getV 0 ≠ 0x01#8 ∧ exec (.sneImm 0 0x01) lastSkip = .next (after (.sneImm 0 0x01) lastSkip)) :=
  ⟨by unfold ControlBounded; decide, rfl, by decide, ⟨by decide, rfl⟩, ⟨by decide, rfl⟩⟩
theorem witness_AddToIndex : (index 0xFFF).i.toNat + ((index 0xFFF).getV 0).toNat = 0xFFF ∧
    { regs [(0, 1)] with i := 0xFFF }.i.toNat + ((regs [(0, 1)]).getV 0).toNat > 0xFFF := by decide
theorem witness_DecimalStore : (index 0xFFD).i.toNat + 2 ≤ 0xFFF ∧ 0xFFF < (index 0xFFE).i.toNat + 2 := by decide
theorem witness_StoreRegisters : (index 0xFF0).i.toNat + (0xF#4).toNat ≤ 0xFFF ∧ 0xFFF < (index 0xFF1).i.toNat + (0xF#4).toNat ∧
    (index 0xFFF).i.toNat + (0x0#4).toNat ≤ 0xFFF ∧ 0xFFF < (index 0x1000).i.toNat + (0x0#4).toNat := by decide
/-- FX65 has the ranges of FX55. -/
theorem witness_LoadRegisters : (index 0xFF0).i.toNat + (0xF#4).toNat ≤ 0xFFF ∧ 0xFFF < (index 0xFF1).i.toNat + (0xF#4).toNat := by
  decide

/-- Registers stored at the top of memory, then other registers. -/
def restored : State := { after (.storeRegs 0xF) (index 0xFF0) with v := Vector.replicate 16 0x77#8 }

theorem witness_StoredRegistersLoadBack : (index 0xFF0).i.toNat + (0xF#4).toNat ≤ 0xFFF ∧
    exec (.storeRegs 0xF) (index 0xFF0) = .next (after (.storeRegs 0xF) (index 0xFF0)) ∧
    restored = { after (.storeRegs 0xF) (index 0xFF0) with v := restored.v } ∧
    exec (.loadRegs 0xF) restored = .next (after (.loadRegs 0xF) restored) := ⟨by decide, rfl, rfl, rfl⟩

/-- Step 4 of program P5: V0 = 0x6E, V1 = 0x77, I at 0x20A and FX55 fetched from 0x206. -/
def modifying : State := { regs [(0, 0x6E), (1, 0x77)] with i := 0x20A, pc := 0x208 }

/-- Step 6 of P5: PC has come to the stored word, which still stands. -/
def modified : State := { after (.storeRegs 0x1) modifying with pc := 0x20A }

theorem witness_StoredWordIsFetched : modifying.i.toNat + (0x1#4).toNat ≤ 0xFFF ∧
    exec (.storeRegs 0x1) modifying = .next (after (.storeRegs 0x1) modifying) ∧
    modified.run = .running ∧ modified.pc.toNat + 1 ≤ 0xFFF ∧
    modified.mem.get modified.pc.toNat = (after (.storeRegs 0x1) modifying).mem.get modified.pc.toNat ∧
    modified.mem.get (modified.pc.toNat + 1) = (after (.storeRegs 0x1) modifying).mem.get (modified.pc.toNat + 1) :=
  ⟨by decide, rfl, rfl, by decide, rfl, rfl⟩
/-- FX33 at the top of memory, and the fetch of the last word, of which the store wrote both bytes. -/
theorem witness_StoredWordIsFetched_digits : (index 0xFFD).i.toNat + 2 ≤ 0xFFF ∧
    exec (.ldB 0x0) (index 0xFFD) = .next (after (.ldB 0x0) (index 0xFFD)) ∧
    (State.setPc (after (.ldB 0x0) (index 0xFFD)) 0xFFE).run = .running ∧
    (State.setPc (after (.ldB 0x0) (index 0xFFD)) 0xFFE).pc.toNat + 1 ≤ 0xFFF := ⟨by decide, rfl, rfl, by decide⟩
/-- P5, steps 4 and 6: the stored word is 6E77. -/
theorem test_self_modifying : (stepped modified).getV 0xE = 0x77 := by decide

/-- G-5 and G-6: two bytes at the top of memory, drawn from row 30 and from row 29. -/
def lowRow (y : Byte) : State := holding { regs [(1, y)] with i := 0xFFE } 0xFFE [0xFF, 0xFF]

theorem witness_DrawComposesSprite : rowsInMemory (lowRow 30) 0x5 (((lowRow 30).getV 1).toNat % 32) ∧
    rowsInMemory (lowRow 29) 0x0 (((lowRow 29).getV 1).toNat % 32) := by unfold rowsInMemory; decide
theorem witness_DrawOutOfRangeFaults : ¬ rowsInMemory (lowRow 29) 0x5 (((lowRow 29).getV 1).toNat % 32) := by
  unfold rowsInMemory; decide
theorem witness_DrawTwiceRestores : exec (.drw 0 1 0x5) (lowRow 30) = .next (after (.drw 0 1 0x5) (lowRow 30)) ∧
    (after (.drw 0 1 0x5) (lowRow 30)).present = true ∧
    ((after (.drw 0 1 0x5) (lowRow 30)).getV 0).toNat % 64 = ((lowRow 30).getV 0).toNat % 64 ∧
    ((after (.drw 0 1 0x5) (lowRow 30)).getV 1).toNat % 32 = ((lowRow 30).getV 1).toNat % 32 ∧
    exec (.drw 0 1 0x5) (after (.drw 0 1 0x5) (lowRow 30)) = .next (after (.drw 0 1 0x5) (after (.drw 0 1 0x5) (lowRow 30))) ∧
    spriteBit (rowBytes (lowRow 30) 0x5 30) 0 30 0 30 = true ∧ (lowRow 30).fb = Framebuffer.clear :=
  ⟨rfl, by decide, by decide, by decide, rfl, by decide, rfl⟩
theorem witness_TimerInstructions : exec (.ldDtVx 0x0) (regs [(0, 0xFF)]) = .next (after (.ldDtVx 0x0) (regs [(0, 0xFF)])) ∧
    exec (.ldVxDt 0x1) (after (.ldDtVx 0x0) (regs [(0, 0xFF)])) =
      .next (after (.ldVxDt 0x1) (after (.ldDtVx 0x0) (regs [(0, 0xFF)]))) := ⟨rfl, rfl⟩
theorem witness_SkipOnKey : ((regs [(0, 0x0F)]).getV 0).toNat ≤ 0x0F ∧ 0x0F < ((regs [(0, 0x10)]).getV 0).toNat := by decide
/-- No completed key; and key 7 completed with the held key 3 below it. -/
theorem witness_WaitForKeyRelease : (∀ k, k < 16 → keyEdge 0xFFFF#16 0xFFFF#16 k = false) ∧
    (7 < 16 ∧ keyEdge 0x0008#16 0x0080#16 7 = true ∧ ∀ j, j < 7 → keyEdge 0x0008#16 0x0080#16 j = false) ∧
    ({ start with inputs := [⟨0, 0x0008#16, 0⟩], shadow := 0x0080 } : State).input.keys = 0x0008#16 := by decide
theorem witness_LoadPlacesProgram : (List.replicate 0xE00 0xFF#8).length ≤ 0xE00 ∧ ([] : List Byte).length ≤ 0xE00 :=
  ⟨List.length_replicate.le, Nat.zero_le _⟩
theorem witness_LoadOverflowStopsTheBlock : 0xE00 < (List.replicate 0xE01 0xFF#8).length :=
  List.length_replicate.ge

end Sys2Proof.Tests
end

section
/-! SUPPORT and proof of O3. The idea: the decoder is the first-match search of the opcode map (`decodeWith_eq_lookup`), and since no
two rows select one word (`selects_unique`), that search finds the row of a selected word whatever the order of testing
(spec/30_encoding.md R78). A match under a mask is read off the fields by the layout lemmas of Laws/Decode.lean. -/

namespace Sys2Proof.OpcodeMap

open Sys2Proof Sys2Proof.Claims

/-! ### A word and its masked parts in the layouts of R73 -/

theorem encXNN_fields (w : Word) : encXNN (fieldOp w) (fieldX w) (fieldNN w) = w := by
  have low : fieldX w ++ fieldNN w = fieldNNN w := BitVec.extractLsb'_append_extractLsb'_eq_extractLsb' rfl
  have word : fieldOp w ++ fieldNNN w = w.extractLsb' 0 16 := BitVec.extractLsb'_append_extractLsb'_eq_extractLsb' rfl
  rw [encXNN, low, word]
  exact extract_all w

theorem encXYN_fields (w : Word) : encXYN (fieldOp w) (fieldX w) (fieldY w) (fieldN w) = w := by
  have low : fieldY w ++ fieldN w = fieldNN w := BitVec.extractLsb'_append_extractLsb'_eq_extractLsb' rfl
  rw [encXYN, low]
  exact encXNN_fields w

theorem and_opMask (w : Word) : w &&& 0xF000#16 = encXNN (fieldOp w) 0x0#4 0x00#8 :=
  calc w &&& 0xF000#16
    _ = encXNN (fieldOp w) (fieldX w) (fieldNN w) &&& 0xF000#16 := by rw [encXNN_fields]
    _ = encXNN (fieldOp w) 0x0#4 0x00#8 := mask_encXNN_op ..

theorem and_opNMask (w : Word) : w &&& 0xF00F#16 = encXYN (fieldOp w) 0x0#4 0x0#4 (fieldN w) :=
  calc w &&& 0xF00F#16
    _ = encXYN (fieldOp w) (fieldX w) (fieldY w) (fieldN w) &&& 0xF00F#16 := by rw [encXYN_fields]
    _ = encXYN (fieldOp w) 0x0#4 0x0#4 (fieldN w) := mask_encXYN_sub ..

theorem and_opNNMask (w : Word) : w &&& 0xF0FF#16 = encXNN (fieldOp w) 0x0#4 (fieldNN w) :=
  calc w &&& 0xF0FF#16
    _ = encXNN (fieldOp w) (fieldX w) (fieldNN w) &&& 0xF0FF#16 := by rw [encXNN_fields]
    _ = encXNN (fieldOp w) 0x0#4 (fieldNN w) := mask_encXNN_sub ..

theorem and_fullMask (w : Word) : w &&& 0xFFFF#16 = encXNN (fieldOp w) (fieldX w) (fieldNN w) :=
  calc w &&& 0xFFFF#16
    _ = w := BitVec.and_allOnes
    _ = encXNN (fieldOp w) (fieldX w) (fieldNN w) := (encXNN_fields w).symm

/-- The right-hand side writes the fields out as extractions, which simp evaluates when `m` is a match value. -/
theorem encXNN_eq_iff (op : Nibble) (x : RegIx) (nn : Byte) (m : Word) :
    encXNN op x nn = m ↔ op = m.extractLsb' 12 4 ∧ x = m.extractLsb' 8 4 ∧ nn = m.extractLsb' 0 8 := by
  constructor
  · rintro rfl
    exact ⟨(fieldOp_encXNN ..).symm, (fieldX_encXNN ..).symm, (fieldNN_encXNN ..).symm⟩
  · rintro ⟨rfl, rfl, rfl⟩
    exact encXNN_fields m

theorem encXYN_eq_iff (op : Nibble) (x y : RegIx) (n : Nibble) (m : Word) :
    encXYN op x y n = m ↔
      op = m.extractLsb' 12 4 ∧ x = m.extractLsb' 8 4 ∧ y = m.extractLsb' 4 4 ∧ n = m.extractLsb' 0 4 := by
  constructor
  · rintro rfl
    exact ⟨(fieldOp_encXYN ..).symm, (fieldX_encXYN ..).symm, (fieldY_encXYN ..).symm, (fieldN_encXYN ..).symm⟩
  · rintro ⟨rfl, rfl, rfl, rfl⟩
    exact encXYN_fields m

/-! ### First-match search of a list of rows -/

/-- The row selects the word (R78: w AND mask = match). -/
def selects (strict : Bool) (w : Word) (r : MapRow) : Bool := w &&& r.maskFor strict = r.mtch

/-- The instruction of the first row that selects `w`, and `unmatched` where none does. -/
def lookup (strict : Bool) (w : Word) (rows : List MapRow) : Instr :=
  ((rows.find? (selects strict w)).map (·.build w)).getD (.unmatched w)

@[simp] theorem selects_iff (strict : Bool) (w : Word) (r : MapRow) :
    selects strict w r = true ↔ w &&& r.maskFor strict = r.mtch := by
  simp [selects]

@[simp] theorem lookup_nil (strict : Bool) (w : Word) : lookup strict w [] = .unmatched w := rfl

theorem lookup_cons (strict : Bool) (w : Word) (r : MapRow) (rows : List MapRow) :
    lookup strict w (r :: rows) = if w &&& r.maskFor strict = r.mtch then r.build w else lookup strict w rows := by
  by_cases h : w &&& r.maskFor strict = r.mtch <;> simp [lookup, selects, h]

theorem lookup_of_none_selects {strict : Bool} {w : Word} {rows : List MapRow}
    (h : ∀ r ∈ rows, w &&& r.maskFor strict ≠ r.mtch) : lookup strict w rows = .unmatched w := by
  have not_found : rows.find? (selects strict w) = none := by simpa using h
  simp [lookup, not_found]

theorem lookup_of_selects {strict : Bool} {w : Word} {rows : List MapRow} {r : MapRow} (hr : r ∈ rows)
    (hw : w &&& r.maskFor strict = r.mtch) (unique : ∀ q ∈ rows, w &&& q.maskFor strict = q.mtch → q = r) :
    lookup strict w rows = r.build w := by
  obtain ⟨q, hq⟩ : ∃ q, rows.find? (selects strict w) = some q :=
    Option.isSome_iff_exists.mp (List.find?_isSome.mpr ⟨r, hr, by simpa using hw⟩)
  have hqr : q = r := unique q (List.mem_of_find?_eq_some hq) (by simpa using List.find?_some hq)
  simp [lookup, hq, hqr]

/-! ### The rows are disjoint (R78) -/

/-- Two match values that agree on the bits both masks keep belong to one row. -/
theorem mtch_eq_of_compatible : ∀ strict : Bool, ∀ r₁ ∈ opcodeMap, ∀ r₂ ∈ opcodeMap,
    r₁.mtch &&& r₂.maskFor strict = r₂.mtch &&& r₁.maskFor strict → r₁.mtch = r₂.mtch := by
  decide

theorem mtch_eq_of_selects {strict : Bool} {w : Word} {r₁ r₂ : MapRow} (h₁ : r₁ ∈ opcodeMap) (h₂ : r₂ ∈ opcodeMap)
    (hw₁ : w &&& r₁.maskFor strict = r₁.mtch) (hw₂ : w &&& r₂.maskFor strict = r₂.mtch) : r₁.mtch = r₂.mtch := by
  apply mtch_eq_of_compatible strict r₁ h₁ r₂ h₂
  calc r₁.mtch &&& r₂.maskFor strict
    _ = w &&& r₁.maskFor strict &&& r₂.maskFor strict := by rw [hw₁]
    _ = w &&& r₂.maskFor strict &&& r₁.maskFor strict := by ac_rfl
    _ = r₂.mtch &&& r₁.maskFor strict := by rw [hw₂]

theorem opcodeMap_mtch_nodup : (opcodeMap.map MapRow.mtch).Nodup := by decide

theorem selects_unique {strict : Bool} {w : Word} {r₁ r₂ : MapRow} (h₁ : r₁ ∈ opcodeMap) (h₂ : r₂ ∈ opcodeMap)
    (hw₁ : w &&& r₁.maskFor strict = r₁.mtch) (hw₂ : w &&& r₂.maskFor strict = r₂.mtch) : r₁ = r₂ :=
  List.inj_on_of_nodup_map opcodeMap_mtch_nodup h₁ h₂ (mtch_eq_of_selects h₁ h₂ hw₁ hw₂)

/-! ### The decoder searches the map -/

theorem nibble_cases : ∀ op : Nibble, op = 0x0#4 ∨ op = 0x1#4 ∨ op = 0x2#4 ∨ op = 0x3#4 ∨ op = 0x4#4 ∨ op = 0x5#4 ∨ op = 0x6#4 ∨
    op = 0x7#4 ∨ op = 0x8#4 ∨ op = 0x9#4 ∨ op = 0xA#4 ∨ op = 0xB#4 ∨ op = 0xC#4 ∨ op = 0xD#4 ∨ op = 0xE#4 ∨ op = 0xF#4 := by
  decide

@[simp] theorem xOf_eq_fieldX (w : Word) : xOf w = fieldX w := rfl
@[simp] theorem yOf_eq_fieldY (w : Word) : yOf w = fieldY w := rfl
@[simp] theorem nOf_eq_fieldN (w : Word) : nOf w = fieldN w := rfl
@[simp] theorem nnOf_eq_fieldNN (w : Word) : nnOf w = fieldNN w := rfl
@[simp] theorem nnnOf_eq_fieldNNN (w : Word) : nnnOf w = fieldNNN w := rfl

/-- The two rows of opcode 0x0: X is examined together with NN (R76). -/
theorem decode0_eq_rows (strict : Bool) (w : Word) :
    decode0 strict w =
      if (strict = true → fieldX w = 0x0#4) ∧ fieldNN w = 0xE0#8 then .cls
      else if (strict = true → fieldX w = 0x0#4) ∧ fieldNN w = 0xEE#8 then .ret
      else .unmatched w := by
  cases strict
  case false => simp [decode0]
  case true => by_cases h : fieldX w = 0x0#4 <;> simp [decode0, h]

/-- Once the opcode nibble is known, the rows of the other opcodes drop out of the search, and what is left of it tests the fields
that the decoder tests, in the decoder's order. -/
theorem decodeWith_eq_lookup (strict : Bool) (w : Word) : decodeWith strict w = lookup strict w opcodeMap := by
  cases strict <;>
  rcases nibble_cases (fieldOp w) with h | h | h | h | h | h | h | h | h | h | h | h | h | h | h | h <;>
  simp [h, decodeWith, decode0_eq_rows, decode8, decodeE, decodeF, opcodeMap, mapLow, map8, mapHigh, mapF, lookup_cons,
    MapRow.maskFor, and_opMask, and_opNMask, and_opNNMask, and_fullMask, encXNN_eq_iff, encXYN_eq_iff]

/-- Settles O3: the decoder is the search of the map, and a selected word has only one row to find. -/
theorem decodeFollowsOpcodeMap : Obligations.DecodeFollowsOpcodeMap := by
  unfold Obligations.DecodeFollowsOpcodeMap
  intro strict w
  simp only [decodeWith_eq_lookup]
  refine ⟨fun r hr hw => ?_, lookup_of_none_selects, fun r₁ h₁ r₂ h₂ => mtch_eq_of_selects h₁ h₂⟩
  exact lookup_of_selects hr hw fun q hq hq' => selects_unique hq hr hq' hw

end Sys2Proof.OpcodeMap
end

section
/-! SUPPORT and proofs of O29 and O34. Each statement is made of a row of the opcode map (`encodes_row`), the effect of the instruction
after its fetch, and what the step that follows does: it executes the word at PC (`step_of_fetch_fits`), or its fetch faults
(`step_fetch_faults`). -/

namespace Sys2Proof.Flow

open Sys2Proof Sys2Proof.Machine Sys2Proof.Claims

/-! ### A row of the map read by the hardware's decoder (spec/30_encoding.md R78) -/

theorem encodes_row {r : MapRow} (hr : r ∈ opcodeMap) : Encodes r.mask r.mtch r.build := fun w hw =>
  (OpcodeMap.decodeFollowsOpcodeMap Config.decodeStrict w).1 r hr hw

/-! ### The two iterations of a running block (spec/40_cycle.md R101, R102) -/

theorem step_of_fetch_fits {s : State} (running : s.run = .running) (fits : s.pc.toNat + 1 ≤ 0xFFF) :
    step s = closeIteration (exec (decode (s.mem.get s.pc.toNat ++ s.mem.get (s.pc.toNat + 1)))
      (s.beginIteration.setPc (s.pc + 2#16))) := by
  obtain ⟨r, faulted, -⟩ | ⟨-, past, -⟩ | ⟨-, -, executes⟩ := step_cases s
  · simp [running] at faulted
  · omega
  · exact executes

theorem step_of_fetch_past {s : State} (running : s.run = .running) (past : 0xFFF < s.pc.toNat + 1) :
    step s = .next s.fetchFaultIteration := by
  obtain ⟨r, faulted, -⟩ | ⟨-, -, faults⟩ | ⟨-, fits, -⟩ := step_cases s
  · simp [running] at faulted
  · exact faults
  · omega

theorem step_fetch_faults {s : State} (running : s.run = .running) (past : 0xFFF < s.pc.toNat + 1) :
    ∃ u r, step s = .next u ∧ u.run = .faulted r ∧ r.cause = .fetchOutOfRange :=
  ⟨_, _, step_of_fetch_past running past, rfl, rfl⟩

/-! ### 1NNN (spec/41_flow.md R121) -/

theorem exec_jp (nnn : Addr12) (s : State) : exec (.jp nnn) s = .next (s.setPc (nnn.setWidth 16)) := rfl

/-- Settles O29: a self-jump executes and puts PC back where its fetch took it from, and 0xFFF is the last address, at which no word
fits. -/
theorem jumpSetsPc : Obligations.JumpSetsPc := by
  unfold Obligations.JumpSetsPc
  refine ⟨encodes_row (r := ⟨0x1000, 0xF000, 0xF000, fun w => .jp (nnnOf w)⟩) (by simp [opcodeMap, mapLow]), exec_jp,
    ?selfJump, ?last⟩
  case selfJump =>
    intro nnn s running self fits word
    have executes := step_of_fetch_fits running fits
    rw [word, exec_jp, ← self] at executes
    exact ⟨_, executes, rfl, running, rfl⟩
  case last =>
    intro s t running jumped
    rw [exec_jp] at jumped
    cases jumped
    exact step_fetch_faults running (by simp)

/-! ### 3XNN and 4XNN (spec/41_flow.md R123, R124) -/

theorem skipTo_pc_of_holds (s : State) {c : Prop} [Decidable c] (holds : c) : (skipTo s c).pc = s.pc + 2#16 := if_pos holds

theorem skipIf_eq_skipTo (s : State) (c : Prop) [Decidable c] : s.skipIf (decide c) = skipTo s c := by
  rw [State.skipIf_eq]
  by_cases h : c <;> simp [skipTo, State.setPc, h]

theorem exec_seImm (x : RegIx) (nn : Byte) (s : State) : exec (.seImm x nn) s = .next (skipTo s (s.getV x = nn)) := by
  rw [← skipIf_eq_skipTo]
  rfl

theorem exec_sneImm (x : RegIx) (nn : Byte) (s : State) : exec (.sneImm x nn) s = .next (skipTo s (s.getV x ≠ nn)) := by
  rw [← skipIf_eq_skipTo, decide_not]
  rfl

/-- A bounded PC does not wrap in the skip, so from 0xFFE upwards the skip leads past memory. -/
theorem skipTo_past_memory_faults {s : State} {c : Prop} [Decidable c] (bounded : ControlBounded s) (running : s.run = .running)
    (late : 0xFFE ≤ s.pc.toNat) (holds : c) :
    0x1000 ≤ (skipTo s c).pc.toNat ∧
      ∃ u r, step (skipTo s c) = .next u ∧ u.run = .faulted r ∧ r.cause = .fetchOutOfRange := by
  obtain ⟨pc_le, -⟩ := bounded
  have past : 0x1000 ≤ (skipTo s c).pc.toNat := by
    rw [skipTo_pc_of_holds s holds]
    bv_omega
  exact ⟨past, step_fetch_faults running (by omega)⟩

/-- Settles O34: both instructions are the skip of R123 under their own condition. -/
theorem skipOnImmediate : Obligations.SkipOnImmediate := by
  unfold Obligations.SkipOnImmediate
  refine ⟨encodes_row (r := ⟨0x3000, 0xF000, 0xF000, fun w => .seImm (xOf w) (nnOf w)⟩) (by simp [opcodeMap, mapLow]),
    encodes_row (r := ⟨0x4000, 0xF000, 0xF000, fun w => .sneImm (xOf w) (nnOf w)⟩) (by simp [opcodeMap, mapLow]),
    fun x nn s => ⟨exec_seImm x nn s, exec_sneImm x nn s⟩, ?pastMemory⟩
  case pastMemory =>
    rintro x nn s t bounded running late (⟨holds, skipped⟩ | ⟨holds, skipped⟩)
    · rw [exec_seImm] at skipped
      cases skipped
      exact skipTo_past_memory_faults bounded running late holds
    · rw [exec_sneImm] at skipped
      cases skipped
      exact skipTo_past_memory_faults bounded running late holds

end Sys2Proof.Flow
end

section
/-! SUPPORT and proofs of O36, O37 and O39 to O41. Each statement is made of a row of the opcode map (`encodes_of_mem`), the register
file that a write with or without a flag leaves (`vFile_setV`, `vFile_setVThenFlag`), and the equation between the model's bit vector
operation and the integers the spec computes with (spec/42_alu.md R152). -/

namespace Sys2Proof.Alu

open Sys2Proof Sys2Proof.Machine Sys2Proof.Claims

/-! ### The row and the register file -/

/-- For a row without ignored bits, its two masks being equal: the form in which a statement names the row. -/
theorem encodes_of_mem {mtch mask : Word} {build : Word → Instr} (mem : ⟨mtch, mask, mask, build⟩ ∈ opcodeMap) :
    Encodes mask mtch build :=
  Flow.encodes_row mem

theorem vFile_setV (s : State) (x : RegIx) (b : Byte) : VFile s (s.setV x b) (withReg s x b) :=
  ⟨rfl, State.setV_getV s x b⟩

/-- The two sides test VF before X in the same order, so the flag wins where X = F (R146 to R150). -/
theorem vFile_setVThenFlag (s : State) (x : RegIx) (b flag : Byte) :
    VFile s (s.setVThenFlag x b flag) (withRegFlag s x b flag) :=
  ⟨rfl, State.setVThenFlag_getV s x b flag⟩

/-! ### Bytes as integers (spec/42_alu.md R152) -/

theorem add_eq_ofNat_mod (a b : Byte) : a + b = BitVec.ofNat 8 ((a.toNat + b.toNat) % 256) :=
  BitVec.eq_of_toNat_eq (by simp)

theorem toNat_add_twice (a b : Byte) : (a + b + b).toNat = (a.toNat + 2 * b.toNat) % 256 := by
  simp only [BitVec.toNat_add]
  omega

theorem sub_eq_ofInt_emod (a b : Byte) : a - b = BitVec.ofInt 8 ((a.toNat - b.toNat : Int) % 256) := by
  apply BitVec.eq_of_toNat_eq
  rw [BitVec.toNat_sub, BitVec.toNat_ofInt]
  omega

theorem ushiftRight_one_eq_ofNat_div (a : Byte) : a >>> 1 = BitVec.ofNat 8 (a.toNat / 2) := by
  apply BitVec.eq_of_toNat_eq
  rw [BitVec.toNat_ushiftRight, BitVec.toNat_ofNat, Nat.shiftRight_one]
  omega

theorem shiftLeft_one_eq_ofNat_mod (a : Byte) : a <<< 1 = BitVec.ofNat 8 (a.toNat * 2 % 256) :=
  BitVec.eq_of_toNat_eq (by simp [Nat.shiftLeft_eq])

/-! ### The flags as integers -/

theorem carryFlag_eq (a b : Byte) : carryFlag a b = if a.toNat + b.toNat > 255 then 0x01#8 else 0x00#8 := by
  simp [carryFlag, flagByte]

theorem noBorrowFlag_eq (a b : Byte) : noBorrowFlag a b = if a.toNat ≥ b.toNat then 0x01#8 else 0x00#8 := by
  simp [noBorrowFlag, flagByte]

theorem flagByte_eq_ofNat_toNat (b : Bool) : flagByte b = BitVec.ofNat 8 b.toNat := by
  cases b <;> rfl

theorem shiftedOutLow_eq (a : Byte) : shiftedOutLow a = BitVec.ofNat 8 (a.toNat % 2) := by
  rw [shiftedOutLow, flagByte_eq_ofNat_toNat, BitVec.getLsbD, Nat.toNat_testBit]
  simp

/-- The quotient is a bit by itself: a byte is below 2 · 128. -/
theorem shiftedOutHigh_eq (a : Byte) : shiftedOutHigh a = BitVec.ofNat 8 (a.toNat / 128) := by
  have bit : a.toNat / 2 ^ 7 % 2 = a.toNat / 128 := by omega
  rw [shiftedOutHigh, flagByte_eq_ofNat_toNat, BitVec.getLsbD, Nat.toNat_testBit, bit]

/-! ### Loads and 7XNN (spec/42_alu.md R140 to R142) -/

theorem exec_ldImm (x : RegIx) (nn : Byte) (s : State) : exec (.ldImm x nn) s = .next (s.setV x nn) := rfl

theorem exec_ldReg (x y : RegIx) (s : State) : exec (.ldReg x y) s = .next (s.setV x (s.getV y)) := rfl

theorem exec_addImm (x : RegIx) (nn : Byte) (s : State) : exec (.addImm x nn) s = .next (s.setV x (s.getV x + nn)) := rfl

/-- Settles O36: both instructions are one register write. -/
theorem loadImmediateAndCopy : Obligations.LoadImmediateAndCopy := by
  unfold Obligations.LoadImmediateAndCopy
  exact ⟨encodes_of_mem (by simp [opcodeMap, mapLow]), encodes_of_mem (by simp [opcodeMap, map8]),
    fun x nn s => ⟨_, exec_ldImm x nn s, vFile_setV ..⟩,
    fun x y s => ⟨_, exec_ldReg x y s, vFile_setV ..⟩⟩

/-- Settles O37: the second execution reads the sum that the first wrote. -/
theorem addImmediateWraps : Obligations.AddImmediateWraps := by
  unfold Obligations.AddImmediateWraps
  refine ⟨encodes_of_mem (by simp [opcodeMap, mapLow]), fun x nn s =>
    ⟨_, _, exec_addImm x nn s, ?once, exec_addImm x nn _, ?twice⟩⟩
  case once =>
    rw [← add_eq_ofNat_mod]
    exact vFile_setV ..
  case twice => simp only [State.setV_getV, if_pos, toNat_add_twice]

/-! ### 8XY4 (spec/42_alu.md R146) -/

theorem exec_addReg (x y : RegIx) (s : State) :
    exec (.addReg x y) s = .next (s.setVThenFlag x (s.getV x + s.getV y) (carryFlag (s.getV x) (s.getV y))) := rfl

/-- Settles O39: the sum and the carry are taken from the values read before the two writes. -/
theorem addWithCarry : Obligations.AddWithCarry := by
  unfold Obligations.AddWithCarry
  refine ⟨encodes_of_mem (by simp [opcodeMap, map8]), fun x y s => ⟨_, exec_addReg x y s, ?_⟩⟩
  rw [← add_eq_ofNat_mod, ← carryFlag_eq]
  exact vFile_setVThenFlag ..

/-! ### 8XY5 and 8XY7 (spec/42_alu.md R147, R149) -/

theorem exec_subReg (x y : RegIx) (s : State) :
    exec (.subReg x y) s = .next (s.setVThenFlag x (s.getV x - s.getV y) (noBorrowFlag (s.getV x) (s.getV y))) := rfl

theorem exec_subn (x y : RegIx) (s : State) :
    exec (.subn x y) s = .next (s.setVThenFlag x (s.getV y - s.getV x) (noBorrowFlag (s.getV y) (s.getV x))) := rfl

theorem vFile_difference (s : State) (x : RegIx) (minuend subtrahend : Byte) :
    VFile s (s.setVThenFlag x (minuend - subtrahend) (noBorrowFlag minuend subtrahend))
      (withRegFlag s x (BitVec.ofInt 8 ((minuend.toNat - subtrahend.toNat : Int) % 256))
        (if minuend.toNat ≥ subtrahend.toNat then 0x01#8 else 0x00#8)) := by
  rw [← sub_eq_ofInt_emod, ← noBorrowFlag_eq]
  exact vFile_setVThenFlag ..

/-- Settles O40: the two instructions are one subtraction with its operands exchanged. -/
theorem subtractWithNoBorrowFlag : Obligations.SubtractWithNoBorrowFlag := by
  unfold Obligations.SubtractWithNoBorrowFlag
  exact ⟨encodes_of_mem (by simp [opcodeMap, map8]), encodes_of_mem (by simp [opcodeMap, map8]), fun x y s =>
    ⟨⟨_, exec_subReg x y s, vFile_difference ..⟩, ⟨_, exec_subn x y s, vFile_difference ..⟩⟩⟩

/-! ### 8XY6 and 8XYE (spec/42_alu.md R148, R150) -/

theorem exec_shr (x y : RegIx) (s : State) :
    exec (.shr x y) s = .next (s.setVThenFlag x (s.getV x >>> 1) (shiftedOutLow (s.getV x))) := rfl

theorem exec_shl (x y : RegIx) (s : State) :
    exec (.shl x y) s = .next (s.setVThenFlag x (s.getV x <<< 1) (shiftedOutHigh (s.getV x))) := rfl

/-- Settles O41: halving and doubling, each with the bit that leaves the byte as its flag. -/
theorem shiftsByOne : Obligations.ShiftsByOne := by
  unfold Obligations.ShiftsByOne
  refine ⟨encodes_of_mem (by simp [opcodeMap, map8]), encodes_of_mem (by simp [opcodeMap, map8]), fun x y s =>
    ⟨⟨_, exec_shr x y s, ?halved⟩, ⟨_, exec_shl x y s, ?doubled⟩⟩⟩
  case halved =>
    rw [← ushiftRight_one_eq_ofNat_div, ← shiftedOutLow_eq]
    exact vFile_setVThenFlag ..
  case doubled =>
    rw [← shiftLeft_one_eq_ofNat_mod, ← shiftedOutHigh_eq]
    exact vFile_setVThenFlag ..

end Sys2Proof.Alu
end

section
/-! SUPPORT and proof of O43. The statement is made of two rows of the opcode map (`encodes_of_mem`), the one write to I that each
instruction is, and the glyph address as a number: the model takes the low nibble of VX by a remainder, the spec by a mask
(spec/43_index_memory.md R172). -/

namespace Sys2Proof.Index

open Sys2Proof Sys2Proof.Machine Sys2Proof.Claims

theorem exec_ldI (nnn : Addr12) (s : State) : exec (.ldI nnn) s = .next (s.setI (nnn.setWidth 16)) := rfl

theorem exec_ldF (x : RegIx) (s : State) : exec (.ldF x) s = .next (s.setI (glyphAddress (s.getV x))) := rfl

theorem toNat_and_lowNibble (b : Byte) : (b &&& 0x0F#8).toNat = b.toNat % 16 := by
  rw [BitVec.toNat_and]
  exact Nat.and_two_pow_sub_one_eq_mod b.toNat 4

/-- The address of the last glyph, 0x050 + 15 · 5, is below 2 ^ 16, so I holds it whole. -/
theorem glyphAddress_toNat (b : Byte) : (glyphAddress b).toNat = 0x050 + (b &&& 0x0F#8).toNat * 5 := by
  rw [toNat_and_lowNibble, glyphAddress, Config.fontBase, BitVec.toNat_ofNat]
  omega

/-- Settles O43: each of the two instructions is one write to I. -/
theorem loadIndexAndGlyph : Obligations.LoadIndexAndGlyph := by
  unfold Obligations.LoadIndexAndGlyph
  exact ⟨Alu.encodes_of_mem (by simp [opcodeMap, mapHigh]), Alu.encodes_of_mem (by simp [opcodeMap, mapF]),
    exec_ldI, fun x s => ⟨_, exec_ldF x s, rfl, glyphAddress_toNat (s.getV x)⟩⟩

end Sys2Proof.Index
end

section
/-! SUPPORT. Everything an instruction can do, said once: it raises a fault (`Raises`, spec/60_exceptions.md R251) and then its whole
effect is that fault (`exec_of_raises`), or it does not and its effect is `completed` (`exec_of_completes`). `completed` is written as
record updates, so what an instruction leaves unchanged is true by unfolding it. -/

namespace Sys2Proof.Exec

open Sys2Proof Sys2Proof.Machine Sys2Proof.Claims

/-! ### Which fault an instruction raises, and its effect when it raises none -/

/-- The instruction raises a cause with an info in the state `s` after its fetch (spec/60_exceptions.md R251). -/
inductive Raises (s : State) : Instr → Fault → Option Nat → Prop
  | ret (empty : s.sp.val = 0) : Raises s .ret .stackUnderflow none
  | call {nnn : Addr12} (full : s.sp.val = 16) : Raises s (.call nnn) .stackOverflow none
  | skp {x : RegIx} (noKey : 0x0F < (s.getV x).toNat) : Raises s (.skp x) .keyOutOfRange (some (s.getV x).toNat)
  | sknp {x : RegIx} (noKey : 0x0F < (s.getV x).toNat) : Raises s (.sknp x) .keyOutOfRange (some (s.getV x).toNat)
  | ldB {x : RegIx} (past : 0xFFF < s.i.toNat + 2) : Raises s (.ldB x) .dataOutOfRange (some (max s.i.toNat 0x1000))
  | storeRegs {x : RegIx} (past : 0xFFF < s.i.toNat + x.toNat) :
    Raises s (.storeRegs x) .dataOutOfRange (some (max s.i.toNat 0x1000))
  | loadRegs {x : RegIx} (past : 0xFFF < s.i.toNat + x.toNat) :
    Raises s (.loadRegs x) .dataOutOfRange (some (max s.i.toNat 0x1000))
  | drw {x y : RegIx} {n : Nibble} (past : ¬ rowsInMemory s n ((s.getV y).toNat % 32)) :
    Raises s (.drw x y n) .dataOutOfRange (some (max s.i.toNat 0x1000))

theorem sp_le (s : State) : s.sp.val ≤ 16 := Nat.le_of_lt_succ s.sp.isLt

theorem sp_pred_lt (s : State) : s.sp.val - 1 < Config.stackDepth :=
  Nat.lt_of_le_of_lt (Nat.sub_le_sub_right (sp_le s) 1) (by decide)

theorem sp_add_one {s : State} (room : s.sp.val < 16) : (s.sp + 1).val = s.sp.val + 1 :=
  Fin.val_add_one_of_lt' (Nat.succ_lt_succ room)

/-- The shadow that FX0A leaves and the key that completes (spec/46_input.md R234). -/
def keyScan (s : State) : BitVec 16 × Option Nat := scanKeys s.input.keys 16 s.shadow

/-- The register file `v` after V0..VX have been loaded from `addr` upwards (spec/43_index_memory.md R175). Irreducible, so that a
proof by unfolding `completed` does not compute its sixteen entries. -/
@[irreducible] def loadedFile (v : Vector Byte 16) (m : Memory) (addr : Nat) (x : RegIx) : Vector Byte 16 :=
  Vector.ofFn fun k : Fin 16 => if k.val ≤ x.toNat then m.get (addr + k.val) else v[k.val]

/-- The effect of an instruction that raises no fault; the state is the one after its fetch. -/
def completed : Instr → State → State
  | .cls, s => { s with fb := Framebuffer.clear, present := true }
  | .ret, s => { s with pc := s.stack[s.sp.val - 1]'(sp_pred_lt s), sp := ⟨s.sp.val - 1, (sp_pred_lt s).trans (by decide)⟩ }
  | .jp nnn, s => s.setPc (absTarget nnn)
  | .call nnn, s => { s with stack := s.stack.setIfInBounds s.sp.val s.pc, sp := s.sp + 1, pc := absTarget nnn }
  | .seImm x nn, s => skipTo s (s.getV x = nn)
  | .sneImm x nn, s => skipTo s (s.getV x ≠ nn)
  | .seReg x y, s => skipTo s (s.getV x = s.getV y)
  | .sneReg x y, s => skipTo s (s.getV x ≠ s.getV y)
  | .ldImm x nn, s => s.setV x nn
  | .addImm x nn, s => s.setV x (s.getV x + nn)
  | .ldReg x y, s => s.setV x (s.getV y)
  | .orReg x y, s => s.setV x (s.getV x ||| s.getV y)
  | .andReg x y, s => s.setV x (s.getV x &&& s.getV y)
  | .xorReg x y, s => s.setV x (s.getV x ^^^ s.getV y)
  | .addReg x y, s => s.setVThenFlag x (s.getV x + s.getV y) (carryFlag (s.getV x) (s.getV y))
  | .subReg x y, s => s.setVThenFlag x (s.getV x - s.getV y) (noBorrowFlag (s.getV x) (s.getV y))
  | .shr x _, s => s.setVThenFlag x (s.getV x >>> 1) (shiftedOutLow (s.getV x))
  | .subn x y, s => s.setVThenFlag x (s.getV y - s.getV x) (noBorrowFlag (s.getV y) (s.getV x))
  | .shl x _, s => s.setVThenFlag x (s.getV x <<< 1) (shiftedOutHigh (s.getV x))
  | .ldI nnn, s => s.setI (absTarget nnn)
  | .jpV0 nnn, s => s.setPc (offsetTarget nnn (s.getV 0x0#4))
  | .rnd x nn, s => s.setV x (s.input.rnd &&& nn)
  | .drw x y n, s =>
    s.composeSprite ((s.getV x).toNat % 64) ((s.getV y).toNat % 32) (min n.toNat (32 - (s.getV y).toNat % 32))
  | .skp x, s => skipTo s (s.input.keys.getLsbD (s.getV x).toNat = true)
  | .sknp x, s => skipTo s (s.input.keys.getLsbD (s.getV x).toNat = false)
  | .ldVxDt x, s => s.readDelay Config.timerFracBits x
  | .ldVxK x, s =>
    { s with
      v := (keyScan s).2.elim s.v fun k => (s.setV x (BitVec.ofNat 8 k)).v
      shadow := (keyScan s).1
      pc := (keyScan s).2.elim (s.pc - 2#16) fun _ => s.pc }
  | .ldDtVx x, s => s.setDelay Config.timerFracBits x
  | .ldStVx x, s => s.setSound Config.timerFracBits x
  | .addI x, s => (s.setI (indexSum false s.i (s.getV x))).setV vf (flagByte (indexOverflow s.i (s.getV x)))
  | .ldF x, s => s.setI (glyphAddress (s.getV x))
  | .ldB x, s => s.setMem (s.mem.setBytes s.i.toNat (bcdDigits (s.getV x)))
  | .storeRegs x, s => s.setMem (s.mem.setBytes s.i.toNat (s.firstRegs x))
  | .loadRegs x, s => { s with v := loadedFile s.v s.mem s.i.toNat x }
  | .unmatched _, s => s

/-! ### The operations that can refuse -/

theorem accessSpan_of_fits {s : State} {last : Nat} (fits : s.i.toNat + last ≤ 0xFFF) (ok : State) :
    s.accessSpan last ok = ok := by
  obtain ⟨-, does⟩ | ⟨past, -⟩ := s.accessSpan_cases last ok
  · exact does
  · omega

theorem accessSpan_of_past {s : State} {last : Nat} (past : 0xFFF < s.i.toNat + last) (ok : State) :
    s.accessSpan last ok = s.raise .dataOutOfRange (some (max s.i.toNat 0x1000)) := by
  obtain ⟨fits, -⟩ | ⟨-, faults⟩ := s.accessSpan_cases last ok
  · omega
  · exact faults

theorem skipOnKey_of_key {s : State} {x : RegIx} (key : (s.getV x).toNat ≤ 0x0F) (held : Bool) :
    s.skipOnKey x held = skipTo s (s.input.keys.getLsbD (s.getV x).toNat = held) := by
  obtain ⟨-, skips⟩ | ⟨noKey, -⟩ := s.skipOnKey_cases x held
  · exact skips
  · omega

theorem skipOnKey_of_noKey {s : State} {x : RegIx} (noKey : 0x0F < (s.getV x).toNat) (held : Bool) :
    s.skipOnKey x held = s.raise .keyOutOfRange (some (s.getV x).toNat) := by
  obtain ⟨key, -⟩ | ⟨-, faults⟩ := s.skipOnKey_cases x held
  · omega
  · exact faults

theorem execDrw_of_fits {x y : RegIx} {n : Nibble} {s : State} (fits : rowsInMemory s n ((s.getV y).toNat % 32)) :
    execDrw x y n s = .next (completed (.drw x y n) s) := by
  obtain ⟨-, draws⟩ | ⟨⟨i, drawn, past⟩, -⟩ := execDrw_cases x y n s
  · exact draws
  · exact absurd (fits i drawn) (not_le.mpr past)

theorem execDrw_of_past {x y : RegIx} {n : Nibble} {s : State} (past : ¬ rowsInMemory s n ((s.getV y).toNat % 32)) :
    execDrw x y n s = .next (s.raise .dataOutOfRange (some (max s.i.toNat 0x1000))) := by
  obtain ⟨fits, -⟩ | ⟨-, faults⟩ := execDrw_cases x y n s
  · exact absurd fits past
  · exact faults

/-! ### The effect of every instruction -/

theorem exec_seReg (x y : RegIx) (s : State) : exec (.seReg x y) s = .next (skipTo s (s.getV x = s.getV y)) := by
  rw [← Flow.skipIf_eq_skipTo]
  rfl

theorem exec_sneReg (x y : RegIx) (s : State) : exec (.sneReg x y) s = .next (skipTo s (s.getV x ≠ s.getV y)) := by
  rw [← Flow.skipIf_eq_skipTo, decide_not]
  rfl

theorem exec_of_raises {i : Instr} {s : State} {cause : Fault} {info : Option Nat} (raised : Raises s i cause info) :
    exec i s = .next (s.raise cause info) := by
  cases raised with
  | ret empty => simp [exec, execRet, State.pop, empty]
  | call full => simp [exec, execCall, State.push, full]
  | skp noKey => exact congrArg _ (skipOnKey_of_noKey noKey true)
  | sknp noKey => exact congrArg _ (skipOnKey_of_noKey noKey false)
  | ldB past => exact congrArg _ (accessSpan_of_past past _)
  | storeRegs past => exact congrArg _ (accessSpan_of_past past _)
  | loadRegs past => exact congrArg _ (accessSpan_of_past past _)
  | drw past => exact execDrw_of_past past

theorem execRet_of_pos {s : State} (pos : 0 < s.sp.val) : execRet s = .next (completed .ret s) := by
  have nonempty : s.sp.val ≠ 0 := by omega
  simp [execRet, State.pop, nonempty, completed, State.setPc]

theorem execCall_of_lt {nnn : Addr12} {s : State} (room : s.sp.val < 16) :
    execCall nnn s = .next (completed (.call nnn) s) := by
  have count : s.sp + 1 = ⟨s.sp.val + 1, Nat.succ_lt_succ room⟩ := Fin.ext (sp_add_one room)
  have entries : s.stack.setIfInBounds s.sp.val s.pc = s.stack.set s.sp.val s.pc room :=
    Vector.ext fun k hk => by simp [Vector.getElem_set, Vector.getElem_setIfInBounds]
  simp [execCall, State.push, room, completed, State.setPc, count, entries]

theorem execLdVxK_eq (x : RegIx) (s : State) : execLdVxK x s = .next (completed (.ldVxK x) s) := by
  simp only [execLdVxK, completed, keyScan]
  obtain ⟨shadow, _ | k⟩ := scanKeys s.input.keys 16 s.shadow <;> rfl

theorem addIndex_hardware (x : RegIx) (s : State) : s.addIndex false true x = completed (.addI x) s := by
  cases overflow : indexOverflow s.i (s.getV x) <;> simp [State.addIndex, completed, overflow]

theorem completed_loadRegs_getV (s : State) (x k : RegIx) : (completed (.loadRegs x) s).getV k =
    if k.toNat ≤ x.toNat then s.mem.get (s.i.toNat + k.toNat) else s.getV k := by
  simp [completed, State.getV, loadedFile]

/-- Register by register: FX65 loads byte k of the span into Vk. -/
theorem loadFrom_eq_completed (s : State) (x : RegIx) :
    s.loadFrom 0 (s.mem.getBytes s.i.toNat (x.toNat + 1)) = completed (.loadRegs x) s := by
  have len := Memory.getBytes_length s.mem (x.toNat + 1) s.i.toNat
  have bound := x.isLt
  rw [State.loadFrom_frame, completed]
  congr 1
  refine v_ext (t := completed (.loadRegs x) s) fun k => ?_
  rw [completed_loadRegs_getV, State.loadFrom_getV _ _ _ (by omega), len]
  by_cases loaded : k.toNat ≤ x.toNat
  · rw [if_pos loaded, if_pos (by omega), Memory.getBytes_getD _ _ _ _ (by omega), Nat.sub_zero]
  · rw [if_neg loaded, if_neg (by omega)]

theorem exec_of_completes {i : Instr} {s : State} (completes : ∀ cause info, ¬ Raises s i cause info) :
    exec i s = .next (completed i s) := by
  cases i
  case ret => exact execRet_of_pos (Nat.pos_of_ne_zero fun empty => completes _ _ (.ret empty))
  case call nnn => exact execCall_of_lt (lt_of_le_of_ne (sp_le s) fun full => completes _ _ (.call full))
  case skp x => exact congrArg _ (skipOnKey_of_key (not_lt.mp fun noKey => completes _ _ (.skp noKey)) true)
  case sknp x => exact congrArg _ (skipOnKey_of_key (not_lt.mp fun noKey => completes _ _ (.sknp noKey)) false)
  case ldB x => exact congrArg _ (accessSpan_of_fits (not_lt.mp fun past => completes _ _ (.ldB past)) _)
  case storeRegs x => exact congrArg _ (accessSpan_of_fits (not_lt.mp fun past => completes _ _ (.storeRegs past)) _)
  case loadRegs x =>
    have fits := not_lt.mp fun past => completes _ _ (.loadRegs past)
    exact congrArg _ ((accessSpan_of_fits fits _).trans (loadFrom_eq_completed s x))
  case drw x y n => exact execDrw_of_fits (not_not.mp fun past => completes _ _ (.drw past))
  case seImm x nn => exact Flow.exec_seImm x nn s
  case sneImm x nn => exact Flow.exec_sneImm x nn s
  case seReg x y => exact exec_seReg x y s
  case sneReg x y => exact exec_sneReg x y s
  case ldVxK x => exact execLdVxK_eq x s
  case addI x => exact congrArg _ (addIndex_hardware x s)
  all_goals rfl

end Sys2Proof.Exec
end

section
/-! SUPPORT and proofs of O18, O20 to O22 and O24 to O28: what an instruction leaves unchanged, what its fault is, where it leaves PC
and what it does not read. Each is read off the two effects an instruction can have (`next_cases`). -/

namespace Sys2Proof.Exec

open Sys2Proof Sys2Proof.Machine Sys2Proof.Claims

/-- Everything an instruction can do (spec/40_cycle.md R105). -/
theorem exec_cases (i : Instr) (s : State) :
    (∃ cause info, Raises s i cause info ∧ exec i s = .next (s.raise cause info)) ∨
    ((∀ cause info, ¬ Raises s i cause info) ∧ exec i s = .next (completed i s)) := by
  by_cases raised : ∃ cause info, Raises s i cause info
  · obtain ⟨cause, info, raised⟩ := raised
    exact .inl ⟨cause, info, raised, exec_of_raises raised⟩
  · have completes : ∀ cause info, ¬ Raises s i cause info := fun cause info h => raised ⟨cause, info, h⟩
    exact .inr ⟨completes, exec_of_completes completes⟩

theorem next_cases {i : Instr} {s t : State} (next : exec i s = .next t) :
    (∃ cause info, Raises s i cause info ∧ t = s.raise cause info) ∨
    ((∀ cause info, ¬ Raises s i cause info) ∧ t = completed i s) := by
  obtain ⟨cause, info, raised, faults⟩ | ⟨completes, ends⟩ := exec_cases i s
  · rw [faults] at next
    cases next
    exact .inl ⟨cause, info, raised, rfl⟩
  · rw [ends] at next
    cases next
    exact .inr ⟨completes, rfl⟩

/-- A property of the state after an instruction that both of its effects have. -/
theorem next_induction {i : Instr} {s : State} {P : State → Prop} (raised : ∀ cause info, P (s.raise cause info))
    (ended : P (completed i s)) {t : State} (next : exec i s = .next t) : P t := by
  obtain ⟨cause, info, -, rfl⟩ | ⟨-, rfl⟩ := next_cases next
  · exact raised cause info
  · exact ended

/-! ### Faults (spec/60_exceptions.md R251 to R256) -/

theorem word_eq_wordAt (s : State) (a : Nat) : s.mem.word a = wordAt s a := by
  by_cases fits : a + 1 ≤ 0xFFF
  · rw [Memory.word_some _ _ fits, wordAt, if_pos fits]
  · rw [Memory.word_none _ _ (by omega), wordAt, if_neg fits]

theorem raise_eq_faultedState (s : State) (cause : Fault) (info : Option Nat) :
    s.raise cause info = faultedState s cause info := by
  rw [faultedState, ← word_eq_wordAt]
  rfl

@[simp] theorem completed_run (i : Instr) (s : State) : (completed i s).run = s.run := by
  cases i <;> rfl

/-- Settles O18: RUN is not touched by an instruction that completes, so a faulted RUN comes from the fault. -/
theorem faultsArePrecise : Obligations.FaultsArePrecise := by
  unfold Obligations.FaultsArePrecise
  intro i s t r running next faulted
  obtain ⟨cause, info, -, rfl⟩ | ⟨-, rfl⟩ := next_cases next
  · rw [raise_eq_faultedState] at faulted ⊢
    cases faulted
    exact ⟨rfl, rfl, rfl⟩
  · simp [running] at faulted

/-- Settles O20: `Raises` lists the causes, one constructor per instruction that has one. -/
theorem faultCausesByInstruction : Obligations.FaultCausesByInstruction := by
  unfold Obligations.FaultCausesByInstruction
  intro i s t r running next faulted
  obtain ⟨cause, info, raised, rfl⟩ | ⟨-, rfl⟩ := next_cases next
  · cases faulted
    cases raised with
    | ret empty => exact .inl ⟨rfl, empty, rfl, rfl⟩
    | call full => exact .inr (.inl ⟨⟨_, rfl⟩, full, rfl, rfl⟩)
    | skp noKey => exact .inr (.inr (.inl ⟨_, .inl rfl, noKey, rfl, rfl⟩))
    | sknp noKey => exact .inr (.inr (.inl ⟨_, .inr rfl, noKey, rfl, rfl⟩))
    | ldB past => exact .inr (.inr (.inr ⟨rfl, rfl, .inl ⟨_, rfl, past⟩⟩))
    | storeRegs past => exact .inr (.inr (.inr ⟨rfl, rfl, .inr (.inl ⟨_, .inl rfl, past⟩)⟩))
    | loadRegs past => exact .inr (.inr (.inr ⟨rfl, rfl, .inr (.inl ⟨_, .inr rfl, past⟩)⟩))
    | drw past => exact .inr (.inr (.inr ⟨rfl, rfl, .inr (.inr ⟨_, _, _, rfl, past⟩)⟩))
  · simp [running] at faulted

/-! ### The register file (spec/10_state.md R22) -/

theorem completed_getV {i : Instr} {s : State} {k : RegIx} (unlisted : writesReg i k = false) :
    (completed i s).getV k = s.getV k := by
  cases i
  case ldImm | addImm | ldReg | orReg | andReg | xorReg | rnd | ldVxDt | addI | addReg | subReg | shr | subn | shl =>
    simp_all [writesReg, completed]
  case drw x y n =>
    rw [completed, State.composeSprite_eq]
    exact (State.setV_getV ..).trans (if_neg (by simpa [writesReg] using unlisted))
  case ldVxK x =>
    simp only [completed]
    cases (keyScan s).2
    · rfl
    · exact (State.setV_getV ..).trans (if_neg (by simpa [writesReg] using unlisted))
  case loadRegs x =>
    rw [completed_loadRegs_getV, if_neg (by simpa [writesReg] using unlisted)]
  all_goals rfl

/-- Settles O21: a fault writes no register, and an instruction that completes only the listed ones. -/
theorem onlyListedInstructionsWriteRegisters : Obligations.OnlyListedInstructionsWriteRegisters := by
  unfold Obligations.OnlyListedInstructionsWriteRegisters
  intro i s t k next unlisted
  exact next_induction (P := fun t => t.getV k = s.getV k) (fun _ _ => rfl) (completed_getV unlisted) next

/-! ### Memory (spec/20_memory.md R52) -/

theorem get_setBytes_outside (bs : List Byte) (a : Nat) : ∀ (m : Memory) (addr : Nat), ¬ (addr ≤ a ∧ a < addr + bs.length) →
    (m.setBytes addr bs).get a = m.get a := by
  induction bs with
  | nil => intro m addr _; rfl
  | cons b bs ih =>
    intro m addr outside
    rw [List.length_cons] at outside
    rw [Memory.setBytes, ih _ _ (by omega), Memory.get_set_other _ _ _ _ (by omega)]

theorem completed_mem_get {i : Instr} {s : State} {a : Nat} (outside : ¬ (s.i.toNat ≤ a ∧ a < s.i.toNat + storedBytes i)) :
    (completed i s).mem.get a = s.mem.get a := by
  cases i
  case ldB x => exact get_setBytes_outside (bcdDigits (s.getV x)) a _ _ outside
  case storeRegs x => exact get_setBytes_outside _ a _ _ (by rwa [State.firstRegs_length])
  all_goals rfl

/-- Settles O22: a fault writes no byte, and an instruction that completes only its span. -/
theorem onlyStoresWriteMemory : Obligations.OnlyStoresWriteMemory := by
  unfold Obligations.OnlyStoresWriteMemory
  intro i s t a next outside
  exact next_induction (P := fun t => t.mem.get a = s.mem.get a) (fun _ _ => rfl) (completed_mem_get outside) next

/-! ### The stack and the special registers (spec/10_state.md R23, R28 to R33) -/

theorem completed_stack {i : Instr} (s : State) (notCall : ∀ nnn, i ≠ .call nnn) : (completed i s).stack = s.stack := by
  cases i
  case call nnn => exact absurd rfl (notCall nnn)
  all_goals rfl

theorem completed_call_stack (nnn : Addr12) (s : State) (k : Fin Config.stackDepth) :
    (completed (.call nnn) s).stack[k.val] = if k.val = s.sp.val then s.pc else s.stack[k.val] := by
  simp [completed, Vector.getElem_setIfInBounds, eq_comm]

theorem completed_sp {i : Instr} (s : State) (notCall : ∀ nnn, i ≠ .call nnn) (notRet : i ≠ .ret) :
    (completed i s).sp = s.sp := by
  cases i
  case call nnn => exact absurd rfl (notCall nnn)
  case ret => exact absurd rfl notRet
  all_goals rfl

theorem completed_stack_other (i : Instr) {s : State} {k : Fin Config.stackDepth} (other : k.val ≠ s.sp.val) :
    (completed i s).stack[k.val] = s.stack[k.val] := by
  by_cases call : ∃ nnn, i = .call nnn
  · obtain ⟨nnn, rfl⟩ := call
    rw [completed_call_stack, if_neg other]
  · have notCall : ∀ nnn, i ≠ .call nnn := fun nnn h => call ⟨nnn, h⟩
    simp only [completed_stack s notCall]

/-- Settles O24: a fault keeps the stack, and of the instructions that complete only the two write to it. -/
theorem onlyCallAndReturnTouchTheStack : Obligations.OnlyCallAndReturnTouchTheStack := by
  unfold Obligations.OnlyCallAndReturnTouchTheStack
  intro i s t next
  obtain ⟨cause, info, -, rfl⟩ | ⟨-, rfl⟩ := next_cases next
  · exact ⟨fun _ => rfl, fun _ _ => rfl, fun _ _ => rfl⟩
  · exact ⟨completed_stack s, completed_sp s, fun _ => completed_stack_other i⟩

theorem completed_i {i : Instr} (s : State) (notLdI : ∀ nnn, i ≠ .ldI nnn) (notLdF : ∀ x, i ≠ .ldF x)
    (notAddI : ∀ x, i ≠ .addI x) : (completed i s).i = s.i := by
  cases i
  case ldI nnn => exact absurd rfl (notLdI nnn)
  case ldF x => exact absurd rfl (notLdF x)
  case addI x => exact absurd rfl (notAddI x)
  all_goals rfl

theorem completed_dt {i : Instr} (s : State) (notLdDt : ∀ x, i ≠ .ldDtVx x) : (completed i s).dt = s.dt := by
  cases i
  case ldDtVx x => exact absurd rfl (notLdDt x)
  all_goals rfl

theorem completed_st {i : Instr} (s : State) (notLdSt : ∀ x, i ≠ .ldStVx x) : (completed i s).st = s.st := by
  cases i
  case ldStVx x => exact absurd rfl (notLdSt x)
  all_goals rfl

theorem completed_shadow {i : Instr} (s : State) (notLdK : ∀ x, i ≠ .ldVxK x) : (completed i s).shadow = s.shadow := by
  cases i
  case ldVxK x => exact absurd rfl (notLdK x)
  all_goals rfl

theorem completed_inputs (i : Instr) (s : State) : (completed i s).inputs = s.inputs := by
  cases i <;> rfl

theorem completed_iter (i : Instr) (s : State) : (completed i s).iter = s.iter := by
  cases i <;> rfl

/-- Settles O25: a fault keeps these fields, and each has its own writers among the instructions that complete. -/
theorem specialRegistersFrame : Obligations.SpecialRegistersFrame := by
  unfold Obligations.SpecialRegistersFrame
  intro i s t next
  obtain ⟨cause, info, -, rfl⟩ | ⟨-, rfl⟩ := next_cases next
  · exact ⟨fun _ _ _ => rfl, fun _ => rfl, fun _ => rfl, fun _ => rfl, rfl, rfl⟩
  · exact ⟨completed_i s, completed_dt s, completed_st s, completed_shadow s, completed_inputs i s, completed_iter i s⟩

/-! ### PC (spec/10_state.md R25) -/

theorem offsetTarget_toNat (nnn : Addr12) (b : Byte) : (offsetTarget nnn b).toNat = nnn.toNat + b.toNat := by
  rw [offsetTarget, BitVec.toNat_add, BitVec.toNat_setWidth, BitVec.toNat_setWidth]
  omega

/-- Everything the scan of all 16 keys can do, in the bits of the shadow (spec/46_input.md R234). -/
theorem keyScan_cases (s : State) :
    ((keyScan s).2 = none ∧ (∀ j, j < 16 → keyEdge s.input.keys s.shadow j = false) ∧
      ∀ j, j < 16 → (keyScan s).1.getLsbD j = (s.shadow.getLsbD j || s.input.keys.getLsbD j)) ∨
    (∃ k, (keyScan s).2 = some k ∧ k < 16 ∧ keyEdge s.input.keys s.shadow k = true ∧
      (∀ j, j < k → keyEdge s.input.keys s.shadow j = false) ∧
      ∀ j, j < 16 → (keyScan s).1.getLsbD j =
        if j < k then (s.shadow.getLsbD j || s.input.keys.getLsbD j) else if j = k then false else s.shadow.getLsbD j) := by
  obtain ⟨after, scan, noEdge, bits⟩ | ⟨after, k, scan, -, lt, edge, least, bits⟩ :=
    scanKeys_cases s.input.keys 16 le_rfl s.shadow
  · exact .inl ⟨by rw [keyScan, scan], fun j => noEdge j (Nat.zero_le j), by simpa [keyScan, scan] using bits⟩
  · exact .inr ⟨k, by rw [keyScan, scan], lt, edge, fun j => least j (Nat.zero_le j), by simpa [keyScan, scan] using bits⟩

theorem completed_ldVxK_pc (x : RegIx) (s : State) :
    (completed (.ldVxK x) s).pc = if ∃ k, k < 16 ∧ keyEdge s.input.keys s.shadow k = true then s.pc else s.pc - 2#16 := by
  obtain ⟨none, noEdge, -⟩ | ⟨k, some, lt, edge, -⟩ := keyScan_cases s
  · have : ¬ ∃ k, k < 16 ∧ keyEdge s.input.keys s.shadow k = true := by
      rintro ⟨k, lt, edge⟩
      simp [noEdge k lt] at edge
    rw [if_neg this, completed, none]
    rfl
  · rw [if_pos ⟨k, lt, edge⟩, completed, some]
    rfl

theorem completed_pc {i : Instr} {s : State} (completes : ∀ cause info, ¬ Raises s i cause info) :
    pcAfter i s (completed i s).pc := by
  cases i
  case ret => exact ⟨sp_pred_lt s, Nat.pos_of_ne_zero fun empty => completes _ _ (.ret empty), rfl⟩
  case jpV0 nnn => exact offsetTarget_toNat ..
  case ldVxK x => exact completed_ldVxK_pc x s
  case sneImm x nn => exact ite_not ..
  case sneReg x y => exact ite_not ..
  case sknp x => cases held : s.input.keys.getLsbD (s.getV x).toNat <;> simp [completed, pcAfter, skipTo, held]
  all_goals rfl

/-- Settles O26: a running state after the instruction is the effect of an instruction that completed. -/
theorem programCounterAfterInstruction : Obligations.ProgramCounterAfterInstruction := by
  unfold Obligations.ProgramCounterAfterInstruction
  intro i s t next running
  obtain ⟨cause, info, -, rfl⟩ | ⟨completes, rfl⟩ := next_cases next
  · simp at running
  · exact completed_pc completes

/-! ### What an instruction does not read (spec/10_state.md R29, R32, R37, R42) -/

/-- Whether an instruction faults depends on the register file, I and SP only. -/
theorem Raises.congr {s t : State} {instr : Instr} {cause : Fault} {info : Option Nat} (raised : Raises t instr cause info)
    (v : t.v = s.v) (i : t.i = s.i) (sp : t.sp = s.sp) : Raises s instr cause info := by
  cases s
  cases t
  cases v
  cases i
  cases sp
  cases raised with
  | ret empty => exact .ret empty
  | call full => exact .call full
  | skp noKey => exact .skp noKey
  | sknp noKey => exact .sknp noKey
  | ldB past => exact .ldB past
  | storeRegs past => exact .storeRegs past
  | loadRegs past => exact .loadRegs past
  | drw past => exact .drw past

/-- Two states that agree on what decides a fault: the instruction faults in both, or completes in both. -/
theorem exec_update {f : State → State} {i : Instr} {s t : State} (v : (f s).v = s.v) (idx : (f s).i = s.i)
    (sp : (f s).sp = s.sp) (raise : ∀ cause info, (f s).raise cause info = f (s.raise cause info))
    (complete : completed i (f s) = f (completed i s)) (next : exec i s = .next t) : exec i (f s) = .next (f t) := by
  obtain ⟨cause, info, raised, rfl⟩ | ⟨completes, rfl⟩ := next_cases next
  · rw [← raise, exec_of_raises (raised.congr v.symm idx.symm sp.symm)]
  · rw [← complete, exec_of_completes fun _ _ raised => completes _ _ (raised.congr v idx sp)]

/-- The state with other inputs to come. -/
def withInputs (q : List Input) (n : Nat) (s : State) : State := { s with inputs := q, iter := n }

theorem completed_withInputs {i : Instr} {s : State} {q : List Input} {n : Nat}
    (keys : readsKeys i → (withInputs q n s).input.keys = s.input.keys)
    (rnd : ∀ x nn, i = .rnd x nn → (withInputs q n s).input.rnd = s.input.rnd) :
    completed i (withInputs q n s) = withInputs q n (completed i s) := by
  cases i
  case rnd x nn =>
    simp only [completed, rnd x nn rfl]
    rfl
  case skp x =>
    simp only [completed, keys trivial]
    rfl
  case sknp x =>
    simp only [completed, keys trivial]
    rfl
  case ldVxK x =>
    have scan : keyScan (withInputs q n s) = keyScan s := congrArg (scanKeys · 16 s.shadow) (keys trivial)
    simp only [completed, scan]
    cases (keyScan s).2 <;> rfl
  all_goals rfl

/-- Settles O27: no fault depends on the inputs, and they reach the effect through KEY and RND only. -/
theorem inputsReachOnlyTheirReaders : Obligations.InputsReachOnlyTheirReaders := by
  unfold Obligations.InputsReachOnlyTheirReaders
  intro i s t q n next keys rnd
  exact exec_update (f := withInputs q n) rfl rfl rfl (fun _ _ => rfl) (completed_withInputs keys rnd) next

/-- The state with another sound timer. -/
def withSt (n : Nat) (s : State) : State := { s with st := n }

theorem completed_withSt (i : Instr) (s : State) (n : Nat) :
    completed i (withSt n s) = { completed i s with st := (completed i (withSt n s)).st } := by
  cases i <;> rfl

theorem completed_withShadow {i : Instr} (s : State) (w : BitVec 16) (notLdK : ∀ x, i ≠ .ldVxK x) :
    completed i { s with shadow := w } = { completed i s with shadow := w } := by
  cases i
  case ldVxK x => exact absurd rfl (notLdK x)
  all_goals rfl

/-- Settles O28: no fault depends on the two fields, and an effect that completes carries them along. -/
theorem soundTimerAndShadowAreNotRead : Obligations.SoundTimerAndShadowAreNotRead := by
  unfold Obligations.SoundTimerAndShadowAreNotRead
  refine ⟨fun i s t n next => ?sound, fun i s t w next notLdK => ?shadow⟩
  case sound =>
    obtain ⟨cause, info, raised, rfl⟩ | ⟨completes, rfl⟩ := next_cases next
    · exact ⟨_, exec_of_raises (s := withSt n s) (raised.congr rfl rfl rfl), rfl, fun _ => rfl⟩
    · have completes' : ∀ cause info, ¬ Raises (withSt n s) i cause info := fun cause info raised =>
        completes cause info (raised.congr rfl rfl rfl)
      exact ⟨_, exec_of_completes completes', completed_withSt i s n, completed_st (withSt n s)⟩
  case shadow =>
    exact exec_update (f := fun s => { s with shadow := w }) rfl rfl rfl (fun _ _ => rfl) (completed_withShadow s w notLdK) next

end Sys2Proof.Exec
end

section
/-! SUPPORT and proofs of O1, O2, O4 and O5. Words are compared field by field (spec/30_encoding.md R71): the model's list of unmatched
words and the canonical word are first said in the fields that the decoder tests. -/

namespace Sys2Proof.Decoding

open Sys2Proof Sys2Proof.Claims Sys2Proof.OpcodeMap

/-! ### The fields as the numbers of R79's list -/

theorem toNat_shiftRight_12 (w : Word) : (w >>> 12).toNat = (fieldOp w).toNat := by
  rw [fieldOp, BitVec.extractLsb'_toNat, BitVec.toNat_ushiftRight, Nat.shiftRight_eq_div_pow]
  omega

theorem fieldN_shiftRight_8 (w : Word) : fieldN (w >>> 8) = fieldX w := by
  apply BitVec.eq_of_toNat_eq
  simp [fieldN, fieldX, BitVec.extractLsb'_toNat]

theorem toNat_and_0xF (w : Word) : (w &&& 0xF#16).toNat = (fieldN w).toNat := by
  rw [fieldN, BitVec.extractLsb'_toNat, BitVec.toNat_and]
  exact Nat.and_two_pow_sub_one_eq_mod _ 4

theorem toNat_and_0xFF (w : Word) : (w &&& 0xFF#16).toNat = (fieldNN w).toNat := by
  rw [fieldNN, BitVec.extractLsb'_toNat, BitVec.toNat_and]
  exact Nat.and_two_pow_sub_one_eq_mod _ 8

/-- R79's list with the numbers read as fields. -/
theorem unmatchedWord_iff (strict : Bool) (w : Word) : unmatchedWord strict w = true ↔
    (fieldOp w = 0x0#4 ∧ (fieldNN w ∉ [0xE0#8, 0xEE#8] ∨ strict = true ∧ fieldX w ≠ 0x0#4)) ∨
    (fieldOp w = 0x8#4 ∧ fieldN w ∈ [0x8#4, 0x9#4, 0xA#4, 0xB#4, 0xC#4, 0xD#4, 0xF#4]) ∨
    (fieldOp w = 0xE#4 ∧ fieldNN w ∉ [0x9E#8, 0xA1#8]) ∨
    (fieldOp w = 0xF#4 ∧ fieldNN w ∉ [0x07#8, 0x0A#8, 0x15#8, 0x18#8, 0x1E#8, 0x29#8, 0x33#8, 0x55#8, 0x65#8]) ∨
    (strict = true ∧ (fieldOp w = 0x5#4 ∨ fieldOp w = 0x9#4) ∧ fieldN w ≠ 0x0#4) := by
  simp only [unmatchedWord, toNat_shiftRight_12, toNat_and_0xF, toNat_and_0xFF, fieldN_shiftRight_8]
  simp [BitVec.toNat_eq_nat, or_assoc, and_assoc]

/-! ### The words each opcode leaves unmatched (R79) -/

theorem decode0_eq_unmatched_iff (strict : Bool) (w : Word) :
    decode0 strict w = .unmatched w ↔ fieldNN w ∉ [0xE0#8, 0xEE#8] ∨ strict = true ∧ fieldX w ≠ 0x0#4 := by
  unfold decode0
  split_ifs <;> simp_all

theorem decode8_eq_unmatched_iff (w : Word) :
    decode8 w = .unmatched w ↔ fieldN w ∈ [0x8#4, 0x9#4, 0xA#4, 0xB#4, 0xC#4, 0xD#4, 0xF#4] := by
  rcases nibble_cases (fieldN w) with h | h | h | h | h | h | h | h | h | h | h | h | h | h | h | h <;> simp [decode8, h]

theorem decodeE_eq_unmatched_iff (w : Word) : decodeE w = .unmatched w ↔ fieldNN w ∉ [0x9E#8, 0xA1#8] := by
  simp [decodeE, ite_eq_iff]

theorem decodeF_eq_unmatched_iff (w : Word) : decodeF w = .unmatched w ↔
    fieldNN w ∉ [0x07#8, 0x0A#8, 0x15#8, 0x18#8, 0x1E#8, 0x29#8, 0x33#8, 0x55#8, 0x65#8] := by
  simp [decodeF, ite_eq_iff]

/-- Settles O4: opcode by opcode, the decoder and R79's list test the same fields. -/
theorem unmatchedWordsAreTheListedOnes : Obligations.UnmatchedWordsAreTheListedOnes := by
  unfold Obligations.UnmatchedWordsAreTheListedOnes
  intro strict w
  rw [unmatchedWord_iff]
  rcases nibble_cases (fieldOp w) with h | h | h | h | h | h | h | h | h | h | h | h | h | h | h | h <;>
  simp [decodeWith, h, decode0_eq_unmatched_iff, decode8_eq_unmatched_iff, decodeE_eq_unmatched_iff, decodeF_eq_unmatched_iff]

/-! ### Decoding an encoded instruction (R70, R72, R83) -/

theorem decode_encode {i : Instr} (wf : i.wf = true) : decode (encode i) = i := by
  cases i
  case unmatched w => exact (unmatchedWordsAreTheListedOnes Config.decodeStrict w).mpr wf
  case cls | ret => rfl
  all_goals simp [decode, decodeWith, encode, decode8, decodeE, decodeF]

/-- Settles O1: the layouts keep every field, and the bytes give the word back. -/
theorem decodeEncodeRoundTrip : Obligations.DecodeEncodeRoundTrip := by
  unfold Obligations.DecodeEncodeRoundTrip
  exact fun i wf => ⟨decode_encode wf, fun rest => by simp [encodeBytes, decodeBytes, decode_encode wf]⟩

/-! ### Encoding a decoded word (R81) -/

theorem and_fieldsMask (w : Word) : w &&& 0xFFF0#16 = encXYN (fieldOp w) (fieldX w) (fieldY w) 0x0#4 := by
  have mask : (0xFFF0#16) = (0xF#4 ++ (0xF#4 ++ (0xF#4 ++ 0x0#4)) : BitVec (4 + (4 + (4 + 4)))) := by decide
  have ones : ∀ a : Nibble, a &&& 0xF#4 = a := fun a => BitVec.and_allOnes
  calc w &&& 0xFFF0#16
    _ = encXYN (fieldOp w) (fieldX w) (fieldY w) (fieldN w) &&& 0xFFF0#16 := by rw [encXYN_fields]
    _ = encXYN (fieldOp w) (fieldX w) (fieldY w) 0x0#4 := by
      rw [encXYN, mask, BitVec.and_append, BitVec.and_append, BitVec.and_append, ones, ones, ones, BitVec.and_zero, encXYN]

/-- The canonical word with its ignored bits named by the fields. -/
theorem canonicalWord_eq (w : Word) : canonicalWord w =
    if fieldOp w = 0x0#4 ∧ fieldNN w = 0xE0#8 then 0x00E0#16
    else if fieldOp w = 0x0#4 ∧ fieldNN w = 0xEE#8 then 0x00EE#16
    else if fieldOp w = 0x5#4 ∨ fieldOp w = 0x9#4 then encXYN (fieldOp w) (fieldX w) (fieldY w) 0x0#4
    else w := by
  simp only [canonicalWord, and_opNNMask, and_opMask, and_fieldsMask, encXNN_eq_iff]
  by_cases five : fieldOp w = 0x5#4 <;> simp [five]

theorem encNNN_eq_word_iff (w : Word) (op : Nibble) : encNNN op (fieldNNN w) = w ↔ fieldOp w = op := by
  have word : fieldOp w ++ fieldNNN w = w.extractLsb' 0 16 := BitVec.extractLsb'_append_extractLsb'_eq_extractLsb' rfl
  constructor
  · intro h
    rw [← h, fieldOp_encNNN]
  · rintro rfl
    exact word.trans (extract_all w)

theorem encXNN_eq_word_iff (w : Word) (op : Nibble) (nn : Byte) :
    encXNN op (fieldX w) nn = w ↔ fieldOp w = op ∧ fieldNN w = nn := by
  rw [encXNN_eq_iff]
  exact ⟨fun ⟨h, _, h'⟩ => ⟨h.symm, h'.symm⟩, fun ⟨h, h'⟩ => ⟨h.symm, rfl, h'.symm⟩⟩

theorem encXYN_eq_word_iff (w : Word) (op n : Nibble) :
    encXYN op (fieldX w) (fieldY w) n = w ↔ fieldOp w = op ∧ fieldN w = n := by
  rw [encXYN_eq_iff]
  exact ⟨fun ⟨h, _, _, h'⟩ => ⟨h.symm, h'.symm⟩, fun ⟨h, h'⟩ => ⟨h.symm, rfl, rfl, h'.symm⟩⟩

theorem encode_decode0 (w : Word) : encode (decode0 false w) =
    if fieldNN w = 0xE0#8 then 0x00E0#16 else if fieldNN w = 0xEE#8 then 0x00EE#16 else w := by
  simp only [decode0, Bool.false_and, Bool.false_eq_true, if_false]
  split_ifs <;> rfl

theorem encode_decode8 {w : Word} (op : fieldOp w = 0x8#4) : encode (decode8 w) = w := by
  simp only [decode8, apply_ite encode, ite_eq_iff']
  simp +contextual [encode, encXYN_eq_word_iff, op]

theorem encode_decodeE {w : Word} (op : fieldOp w = 0xE#4) : encode (decodeE w) = w := by
  simp only [decodeE, apply_ite encode, ite_eq_iff']
  simp +contextual [encode, encXNN_eq_word_iff, op]

theorem encode_decodeF {w : Word} (op : fieldOp w = 0xF#4) : encode (decodeF w) = w := by
  simp only [decodeF, apply_ite encode, ite_eq_iff']
  simp +contextual [encode, encXNN_eq_word_iff, op]

/-- The four opcodes with a second match have their lemmas above; in each of the others the row is the opcode nibble. -/
theorem encode_decode (w : Word) : encode (decode w) = canonicalWord w := by
  rw [canonicalWord_eq, decode]
  by_cases zero : fieldOp w = 0x0#4
  · simp [decodeWith, Config.decodeStrict, zero, encode_decode0]
  by_cases eight : fieldOp w = 0x8#4
  · simp [decodeWith, eight, encode_decode8]
  by_cases fourteen : fieldOp w = 0xE#4
  · simp [decodeWith, fourteen, encode_decodeE]
  by_cases fifteen : fieldOp w = 0xF#4
  · simp [decodeWith, fifteen, encode_decodeF]
  rcases nibble_cases (fieldOp w) with h | h | h | h | h | h | h | h | h | h | h | h | h | h | h | h <;>
  simp_all [decodeWith, Config.decodeStrict, encode, encNNN_eq_word_iff, encXNN_eq_word_iff, encXYN_eq_word_iff]

/-- A row of the map builds an instruction with a row, so only a word that no row selects decodes as unmatched, and as itself. -/
theorem build_ne_unmatched : ∀ r ∈ opcodeMap, ∀ w v : Word, r.build w ≠ .unmatched v := by
  simp [opcodeMap, mapLow, map8, mapHigh, mapF]

theorem eq_of_decode_eq_unmatched {w v : Word} (h : decode w = .unmatched v) : v = w := by
  obtain ⟨selected, unselected, -⟩ := decodeFollowsOpcodeMap Config.decodeStrict w
  by_cases row : ∃ r ∈ opcodeMap, w &&& r.maskFor Config.decodeStrict = r.mtch
  · obtain ⟨r, mem, sel⟩ := row
    exact absurd ((selected r mem sel).symm.trans h) (build_ne_unmatched r mem w v)
  · have none : ∀ r ∈ opcodeMap, w &&& r.maskFor Config.decodeStrict ≠ r.mtch := fun r mem sel => row ⟨r, mem, sel⟩
    exact Instr.unmatched.inj (h.symm.trans (unselected none))

theorem decode_wf (w : Word) : (decode w).wf = true := by
  cases h : decode w
  case unmatched v =>
    cases eq_of_decode_eq_unmatched h
    exact (unmatchedWordsAreTheListedOnes Config.decodeStrict w).mp h
  all_goals rfl

/-- Settles O2: the encoder writes the fields that the decoder read, and 0 where it read none. -/
theorem encodeDecodeGivesCanonicalWord : Obligations.EncodeDecodeGivesCanonicalWord := by
  unfold Obligations.EncodeDecodeGivesCanonicalWord
  exact fun w => ⟨decode_wf w, encode_decode w⟩

/-- Settles O5: the decoder, run on the words. -/
theorem specWordsDecode : Obligations.SpecWordsDecode := by
  unfold Obligations.SpecWordsDecode
  decide

end Sys2Proof.Decoding
end

section
/-! SUPPORT and proofs of O6 to O15, O19 and O23: what one iteration does. A step has four outcomes (`StepResult`); a statement about
every step is proved once for each. -/

namespace Sys2Proof.Steps

open Sys2Proof Sys2Proof.Machine Sys2Proof.Claims Sys2Proof.Exec

/-! ### The outcomes of a step (spec/40_cycle.md R101 to R107) -/

/-- The instruction at PC. -/
def nextInstr (s : State) : Instr := decode (s.mem.get s.pc.toNat ++ s.mem.get (s.pc.toNat + 1))

/-- The state after the fetch, in which the instruction is executed. -/
def fetched (s : State) : State := { advanced s with pc := s.pc + 2#16 }

/-- An instruction that faults puts PC back where its fetch took it from (spec/60_exceptions.md R253). -/
theorem fetched_curAddr (s : State) : (fetched s).curAddr = s.pc := add_sub_cancel_right s.pc 2#16

theorem beginIteration_eq_advanced (s : State) : s.beginIteration = advanced s := by
  rw [State.beginIteration, State.advanceTimers_eq]
  rfl

theorem fetched_eq (s : State) : s.beginIteration.setPc (s.pc + 2#16) = fetched s := by
  rw [beginIteration_eq_advanced]
  rfl

/-- The state after a fetch that faults (spec/40_cycle.md R102). -/
def fetchFaulted (s : State) : State :=
  { advanced s with run := .faulted ⟨.fetchOutOfRange, some s.pc, none, some s.pc.toNat⟩ }

theorem fetchFaultIteration_eq (s : State) : s.fetchFaultIteration = iterationDone (fetchFaulted s) := by
  rw [State.fetchFaultIteration, beginIteration_eq_advanced]
  rfl

theorem step_stopped {s : State} {r : FaultRecord} (stopped : s.run = .faulted r) :
    step s = .next (iterationDone { s with present := false }) := by
  obtain ⟨-, -, idles⟩ | ⟨running, -⟩ | ⟨running, -⟩ := step_cases s
  · exact idles
  · simp [stopped] at running
  · simp [stopped] at running

theorem step_fetch_past {s : State} (running : s.run = .running) (past : 0xFFF < s.pc.toNat + 1) :
    step s = .next (iterationDone (fetchFaulted s)) := by
  rw [Flow.step_of_fetch_past running past, fetchFaultIteration_eq]

theorem step_fetch_fits {s : State} (running : s.run = .running) (fits : s.pc.toNat + 1 ≤ 0xFFF) :
    step s = closeIteration (exec (nextInstr s) (fetched s)) := by
  rw [Flow.step_of_fetch_fits running fits, fetched_eq]
  rfl

/-- What a step from `s` can lead to. -/
inductive StepResult (s : State) : State → Prop
  | stopped (r : FaultRecord) (faulted : s.run = .faulted r) : StepResult s (iterationDone { s with present := false })
  | fetchFault (running : s.run = .running) (past : 0xFFF < s.pc.toNat + 1) : StepResult s (iterationDone (fetchFaulted s))
  | raised (running : s.run = .running) (fits : s.pc.toNat + 1 ≤ 0xFFF) (cause : Fault) (info : Option Nat)
    (raised : Raises (fetched s) (nextInstr s) cause info) : StepResult s (iterationDone ((fetched s).raise cause info))
  | completed (running : s.run = .running) (fits : s.pc.toNat + 1 ≤ 0xFFF)
    (completes : ∀ cause info, ¬ Raises (fetched s) (nextInstr s) cause info) :
    StepResult s (iterationDone (completed (nextInstr s) (fetched s)))

theorem exists_stepResult (s : State) : ∃ t, step s = .next t ∧ StepResult s t := by
  cases run : s.run with
  | faulted r => exact ⟨_, step_stopped run, .stopped r run⟩
  | running =>
    by_cases fits : s.pc.toNat + 1 ≤ 0xFFF
    · have executes := step_fetch_fits run fits
      obtain ⟨cause, info, raised, faults⟩ | ⟨completes, ends⟩ := exec_cases (nextInstr s) (fetched s)
      · rw [faults] at executes
        exact ⟨_, executes, .raised run fits cause info raised⟩
      · rw [ends] at executes
        exact ⟨_, executes, .completed run fits completes⟩
    · exact ⟨_, step_fetch_past run (not_le.mp fits), .fetchFault run (not_le.mp fits)⟩

theorem stepResult {s t : State} (next : step s = .next t) : StepResult s t := by
  obtain ⟨u, next', result⟩ := exists_stepResult s
  rw [next'] at next
  cases next
  exact result

/-! ### The cycle -/

/-- Settles O6: every word decodes to a well-formed instruction, and the step executes it. -/
theorem stepRunsDecodedInstruction : Obligations.StepRunsDecodedInstruction := by
  unfold Obligations.StepRunsDecodedInstruction
  rintro s i running fits rfl
  exact ⟨Decoding.decode_wf _, step_fetch_fits running fits⟩

/-- Settles O7: the effect of an unmatched word is the state it is given. -/
theorem unmatchedWordIsNoOp : Obligations.UnmatchedWordIsNoOp := by
  unfold Obligations.UnmatchedWordIsNoOp
  refine ⟨fun w s => rfl, fun s w running fits word unmatched => ?_⟩
  have instr : nextInstr s = .unmatched w := word ▸ unmatched
  rw [step_fetch_fits running fits, instr]
  rfl

/-- Settles O8: the step of a running block whose fetch faults. -/
theorem fetchPastMemoryFaults : Obligations.FetchPastMemoryFaults := by
  unfold Obligations.FetchPastMemoryFaults
  exact fun s => step_fetch_past

/-- Settles O9: the step of a block that is not running. -/
theorem stoppedBlockTakesNoStep : Obligations.StoppedBlockTakesNoStep := by
  unfold Obligations.StoppedBlockTakesNoStep
  exact fun s r => step_stopped

/-- Settles O10: both effects of an instruction are next states. -/
theorem everyStepAnswersAState : Obligations.EveryStepAnswersAState := by
  unfold Obligations.EveryStepAnswersAState
  refine ⟨fun i s => ?_, fun s => ?_⟩
  · obtain ⟨_, _, -, faults⟩ | ⟨-, ends⟩ := exec_cases i s
    · exact ⟨_, faults⟩
    · exact ⟨_, ends⟩
  · obtain ⟨t, next, -⟩ := exists_stepResult s
    exact ⟨t, next⟩

/-- Settles O11: the advance comes before the fetch, and no other instruction writes the timers. -/
theorem timersCountDownEachIteration : Obligations.TimersCountDownEachIteration := by
  unfold Obligations.TimersCountDownEachIteration
  intro s t running next
  have counted : ∀ raw e : Nat, (if raw > e then raw - e else 0) = raw - e := by
    intro raw e
    split <;> omega
  rw [counted, counted]
  cases stepResult next with
  | stopped r faulted => simp [running] at faulted
  | fetchFault _ past => exact ⟨fun _ => rfl, fun _ => rfl⟩
  | raised _ fits cause info raised => exact ⟨fun _ => rfl, fun _ => rfl⟩
  | completed _ fits completes => exact ⟨completed_dt (fetched s), completed_st (fetched s)⟩

/-! ### Invariants -/

theorem completed_mem_wf (i : Instr) {s : State} (canonical : s.mem.wf) : (completed i s).mem.wf := by
  cases i
  case ldB | storeRegs => exact Memory.wf_setBytes _ _ _ canonical
  all_goals exact canonical

/-- Settles O12: memory is written by whole span writes only, which keep the form. -/
theorem stepKeepsMemoryCanonical : Obligations.StepKeepsMemoryCanonical := by
  unfold Obligations.StepKeepsMemoryCanonical
  intro s t canonical next
  cases stepResult next with
  | stopped r faulted => exact canonical
  | fetchFault running past => exact canonical
  | raised running fits cause info raised => exact canonical
  | completed running fits completes => exact completed_mem_wf (nextInstr s) (s := fetched s) canonical

/-- A fetch leaves PC between the first and the last address after an instruction. -/
theorem fetched_pc_toNat {s : State} (fits : s.pc.toNat + 1 ≤ 0xFFF) : (fetched s).pc.toNat = s.pc.toNat + 2 := by
  show (s.pc + 2#16).toNat = s.pc.toNat + 2
  bv_omega

theorem skip_pc_le {pc : Word} (low : pc.toNat ≤ 0x1000) (c : Prop) [Decidable c] :
    (if c then pc + 2#16 else pc).toNat ≤ 0x10FE ∧ (if c then pc else pc + 2#16).toNat ≤ 0x10FE := by
  split <;> constructor <;> bv_omega

/-- Every target of an instruction that was fetched from memory lies at or below 0x10FE, the last offset target (R26). -/
theorem pcAfter_le {i : Instr} {s : State} {pc : Word} (after : pcAfter i s pc) (ge : 2 ≤ s.pc.toNat) (le : s.pc.toNat ≤ 0x1000)
    (entries : ∀ k : Fin Config.stackDepth, k.val < s.sp.val → s.stack[k.val].toNat ≤ 0x1000) : pc.toNat ≤ 0x10FE := by
  cases i
  case jp nnn | call nnn =>
    cases after
    rw [BitVec.toNat_setWidth]
    omega
  case jpV0 nnn =>
    simp only [pcAfter] at after
    omega
  case ret =>
    obtain ⟨lt, pos, rfl⟩ := after
    exact (entries ⟨s.sp.val - 1, lt⟩ (Nat.sub_one_lt_of_lt pos)).trans (by decide)
  case seImm | seReg | skp =>
    cases after
    exact (skip_pc_le le _).1
  case sneImm | sneReg | sknp =>
    cases after
    exact (skip_pc_le le _).2
  case ldVxK x =>
    cases after
    split <;> bv_omega
  all_goals
    cases after
    omega

theorem completed_entries_le {i : Instr} {s : State} (completes : ∀ cause info, ¬ Raises s i cause info)
    (le : s.pc.toNat ≤ 0x1000) (entries : ∀ k : Fin Config.stackDepth, k.val < s.sp.val → s.stack[k.val].toNat ≤ 0x1000)
    (k : Fin Config.stackDepth) (used : k.val < (completed i s).sp.val) : (completed i s).stack[k.val].toNat ≤ 0x1000 := by
  cases i
  case call nnn =>
    have count := sp_add_one (lt_of_le_of_ne (sp_le s) fun full => completes _ _ (.call full))
    have below : k.val < s.sp.val + 1 := count ▸ used
    rw [completed_call_stack]
    split
    · exact le
    · exact entries k (by omega)
  case ret => exact entries k (lt_of_lt_of_le used (Nat.sub_le s.sp.val 1))
  all_goals exact entries k used

/-- Settles O13: a step that executes starts below 0xFFF, so neither fetch nor skip wraps PC. -/
theorem stepKeepsControlBounded : Obligations.StepKeepsControlBounded := by
  unfold Obligations.StepKeepsControlBounded
  rintro s t ⟨pc_le, entries⟩ next
  cases stepResult next with
  | stopped r faulted => exact ⟨pc_le, entries⟩
  | fetchFault running past => exact ⟨pc_le, entries⟩
  | raised running fits cause info raised =>
    exact ⟨(congrArg BitVec.toNat (fetched_curAddr s)).trans_le pc_le, entries⟩
  | completed running fits completes =>
    have pc := fetched_pc_toNat fits
    exact ⟨pcAfter_le (completed_pc completes) (by omega) (by omega) entries,
      completed_entries_le (i := nextInstr s) completes (by omega) entries⟩

theorem completed_timers_le (i : Instr) {s : State} (bounded : TimersBounded s) : TimersBounded (completed i s) := by
  have byte_le : ∀ b : Byte, b.toNat * 2 ^ Config.timerFracBits ≤ 255 * 2 ^ Config.timerFracBits := fun b =>
    Nat.mul_le_mul_right _ (Nat.le_of_lt_succ b.isLt)
  obtain ⟨dt_le, st_le⟩ := bounded
  cases i
  case ldDtVx x =>
    rw [completed, State.setDelay_eq]
    exact ⟨byte_le _, st_le⟩
  case ldStVx x =>
    rw [completed, State.setSound_eq]
    exact ⟨dt_le, byte_le _⟩
  all_goals exact ⟨dt_le, st_le⟩

/-- Settles O14: the advance only lowers the timers, and FX15 and FX18 set them to a byte. -/
theorem stepKeepsTimersBounded : Obligations.StepKeepsTimersBounded := by
  unfold Obligations.StepKeepsTimersBounded
  intro s t bounded next
  have advanced_le : TimersBounded (advanced s) := ⟨(Nat.sub_le _ _).trans bounded.1, (Nat.sub_le _ _).trans bounded.2⟩
  cases stepResult next with
  | stopped r faulted => exact bounded
  | fetchFault running past => exact advanced_le
  | raised running fits cause info raised => exact advanced_le
  | completed running fits completes => exact completed_timers_le (nextInstr s) (s := fetched s) advanced_le

/-- An executed instruction that completes leaves a running block running. -/
theorem completed_fetched_run {s : State} (running : s.run = .running) (i : Instr) :
    (iterationDone (completed i (fetched s))).run = .running :=
  (completed_run i (fetched s)).trans running

/-- Settles O15: every fault record names the PC at which its fault leaves the block, and an idle iteration moves neither. -/
theorem stepKeepsFaultRecorded : Obligations.StepKeepsFaultRecorded := by
  unfold Obligations.StepKeepsFaultRecorded
  intro s t recorded next r faulted
  cases stepResult next with
  | stopped r' faulted' => exact ⟨rfl, (recorded r faulted).2⟩
  | fetchFault running past =>
    cases faulted
    exact ⟨rfl, .inr rfl⟩
  | raised running fits cause info raised =>
    cases faulted
    exact ⟨rfl, .inr rfl⟩
  | completed running fits completes => simp [completed_fetched_run running] at faulted

/-! ### A step that faults, and the present output -/

theorem cause_ne_fetch {s : State} {i : Instr} {cause : Fault} {info : Option Nat} (raised : Raises s i cause info) :
    cause ≠ .fetchOutOfRange := by
  cases raised <;> simp

/-- Settles O19: the two faults of a step are the one of its fetch and the one of its instruction. -/
theorem faultingStepIsPrecise : Obligations.FaultingStepIsPrecise := by
  unfold Obligations.FaultingStepIsPrecise
  intro s t r running next faulted
  cases stepResult next with
  | stopped r' faulted' => simp [running] at faulted'
  | fetchFault _ past =>
    cases faulted
    have noWord : wordAt s s.pc.toNat = none := if_neg (not_le.mpr past)
    exact ⟨rfl, rfl, noWord.symm, fun _ => past, fun _ => rfl⟩
  | raised _ fits cause info raised =>
    cases faulted
    have word : (fetched s).curWord = wordAt s s.pc.toNat := by
      rw [State.curWord, fetched_curAddr]
      exact word_eq_wordAt s s.pc.toNat
    refine ⟨?_, congrArg some (fetched_curAddr s), word, fun fetch => absurd fetch (cause_ne_fetch raised),
      fun past => absurd past (not_lt.mpr fits)⟩
    rw [State.raise, fetched_curAddr]
    rfl
  | completed _ fits completes => simp [completed_fetched_run running] at faulted

theorem completed_fb {i : Instr} (s : State) (untouched : touchesDisplay i = false) : (completed i s).fb = s.fb := by
  cases i
  case cls | drw => cases untouched
  all_goals rfl

theorem completed_present {i : Instr} {s : State} (down : s.present = false) : (completed i s).present = touchesDisplay i := by
  cases i
  case cls | drw => rfl
  all_goals exact down

/-- Settles O23: only an instruction that completes can raise present, and the fetch has put it down. -/
theorem onlyClearAndDrawTouchTheDisplay : Obligations.OnlyClearAndDrawTouchTheDisplay := by
  unfold Obligations.OnlyClearAndDrawTouchTheDisplay
  refine ⟨fun i s t next untouched =>
    next_induction (P := fun t => t.fb = s.fb) (fun _ _ => rfl) (completed_fb s untouched) next, fun s t next => ?_⟩
  cases stepResult next with
  | stopped r faulted => simp [iterationDone, faulted]
  | fetchFault running past => simp [iterationDone, fetchFaulted, advanced]
  | raised running fits cause info raised => simp [iterationDone]
  | completed running fits completes =>
    have present : (iterationDone (completed (nextInstr s) (fetched s))).present = touchesDisplay (nextInstr s) :=
      completed_present (s := fetched s) rfl
    rw [present]
    exact ⟨fun touches => ⟨running, completed_fetched_run running _, fits, touches⟩, fun ⟨_, _, _, touches⟩ => touches⟩

end Sys2Proof.Steps
end

section
/-! SUPPORT and proofs of O30 to O33, O35, O38, O42, O50 and O52: control transfer, loads and the display instructions that are one
update of the state. Each statement is made of a row of the opcode map and the effect of the instruction, `completed` or a fault. -/

namespace Sys2Proof.Instructions

open Sys2Proof Sys2Proof.Machine Sys2Proof.Claims Sys2Proof.Exec

theorem exec_faults {i : Instr} {s : State} {cause : Fault} {info : Option Nat} (raised : Raises s i cause info) :
    exec i s = .next (faultedState s cause info) := by
  rw [exec_of_raises raised, raise_eq_faultedState]

/-! ### Control transfer (spec/41_flow.md) -/

/-- Settles O30: the sum of a 12-bit address and a byte fits in PC. -/
theorem offsetJumpAddsV0 : Obligations.OffsetJumpAddsV0 := by
  unfold Obligations.OffsetJumpAddsV0
  exact ⟨Alu.encodes_of_mem (by simp [opcodeMap, mapHigh]), fun nnn s => ⟨_, rfl, rfl, offsetTarget_toNat nnn (s.getV 0x0#4)⟩⟩

/-- Settles O31: a stack with room takes the entry, and a full one raises the fault. -/
theorem callPushesReturnAddress : Obligations.CallPushesReturnAddress := by
  unfold Obligations.CallPushesReturnAddress
  exact ⟨Alu.encodes_of_mem (by simp [opcodeMap, mapLow]), fun nnn s =>
    ⟨fun room => ⟨_, execCall_of_lt room, rfl, sp_add_one room, completed_call_stack nnn s⟩,
      fun full => exec_faults (.call full)⟩⟩

/-- A return to the entry `k`, the newest one. -/
theorem exec_ret {s : State} {k : Fin Config.stackDepth} (newest : s.sp.val = k.val + 1) :
    exec .ret s = .next { s with pc := s.stack[k.val], sp := k.castSucc } := by
  have entry : s.sp.val - 1 = k.val := by omega
  have returns : exec .ret s = .next (completed .ret s) := execRet_of_pos (by omega)
  simp only [returns, completed, entry]
  rfl

/-- Settles O32: a stack with an entry gives it up, and an empty one raises the fault. -/
theorem returnPopsIntoPc : Obligations.ReturnPopsIntoPc := by
  unfold Obligations.ReturnPopsIntoPc
  exact ⟨Flow.encodes_row (r := ⟨0x00EE, 0xF0FF, 0xFFFF, fun _ => .ret⟩) (by simp [opcodeMap, mapLow]), fun s =>
    ⟨fun k newest => ⟨_, exec_ret newest, rfl, rfl⟩, fun empty => exec_faults (.ret empty)⟩⟩

/-- Settles O33: the newest entry is the PC that the call pushed at the old SP. -/
theorem returnUndoesCall : Obligations.ReturnUndoesCall := by
  unfold Obligations.ReturnUndoesCall
  intro nnn s t u room called sameStack sameSp
  have calls : exec (.call nnn) s = .next (completed (.call nnn) s) := execCall_of_lt room
  cases calls.symm.trans called
  have newest : u.sp.val = s.sp.val + 1 := (congrArg Fin.val sameSp).trans (sp_add_one room)
  have entry : u.stack[s.sp.val] = s.pc := by
    simp only [sameStack]
    exact (completed_call_stack nnn s ⟨s.sp.val, room⟩).trans (if_pos rfl)
  rw [exec_ret (k := ⟨s.sp.val, room⟩) newest]
  simp only [entry]
  rfl

/-- Settles O35: both instructions are the skip of R123 under their own condition. -/
theorem skipOnRegisters : Obligations.SkipOnRegisters := by
  unfold Obligations.SkipOnRegisters
  exact ⟨Flow.encodes_row (r := ⟨0x5000, 0xF000, 0xF00F, fun w => .seReg (xOf w) (yOf w)⟩) (by simp [opcodeMap, mapLow]),
    Flow.encodes_row (r := ⟨0x9000, 0xF000, 0xF00F, fun w => .sneReg (xOf w) (yOf w)⟩) (by simp [opcodeMap, mapHigh]),
    fun x y s => ⟨exec_seReg x y s, exec_sneReg x y s⟩⟩

/-! ### One register (spec/42_alu.md) -/

/-- Settles O38: each of the three is one register write, so VF is untouched. -/
theorem bitwiseOperations : Obligations.BitwiseOperations := by
  unfold Obligations.BitwiseOperations
  exact ⟨Alu.encodes_of_mem (by simp [opcodeMap, map8]), Alu.encodes_of_mem (by simp [opcodeMap, map8]),
    Alu.encodes_of_mem (by simp [opcodeMap, map8]), fun x y s =>
      ⟨⟨_, rfl, Alu.vFile_setV ..⟩, ⟨_, rfl, Alu.vFile_setV ..⟩, ⟨_, rfl, Alu.vFile_setV ..⟩⟩⟩

/-- Settles O42: one register write of the iteration's random byte, masked. -/
theorem randomByteIsMasked : Obligations.RandomByteIsMasked := by
  unfold Obligations.RandomByteIsMasked
  exact ⟨Alu.encodes_of_mem (by simp [opcodeMap, mapHigh]), fun x nn s => ⟨_, rfl, Alu.vFile_setV ..⟩⟩

/-! ### The display (spec/44_display.md R191, R192) -/

/-- Settles O50: the framebuffer is replaced by the cleared one. -/
theorem clearScreen : Obligations.ClearScreen := by
  unfold Obligations.ClearScreen
  exact ⟨Flow.encodes_row (r := ⟨0x00E0, 0xF0FF, 0xFFFF, fun _ => .cls⟩) (by simp [opcodeMap, mapLow]), fun s =>
    ⟨_, rfl, rfl, Framebuffer.pixel_clear⟩⟩

/-- Settles O52: the fault that `Raises` lists for DXYN. -/
theorem drawOutOfRangeFaults : Obligations.DrawOutOfRangeFaults := by
  unfold Obligations.DrawOutOfRangeFaults
  exact fun x y n s past => exec_faults (.drw past)

end Sys2Proof.Instructions
end

section
/-! SUPPORT and proofs of O44 to O49: FX1E, the stores and the load. What a store leaves at every address is said once
(`stored_regs_get`, `stored_digits_get`) and is what a later load or fetch of the address reads. -/

namespace Sys2Proof.Transfer

open Sys2Proof Sys2Proof.Machine Sys2Proof.Claims Sys2Proof.Exec Sys2Proof.Instructions

/-! ### FX1E (spec/43_index_memory.md R171) -/

theorem indexSum_toNat (mask12 : Bool) (i : Word) (x : Byte) : (indexSum mask12 i x).toNat =
    if mask12 then (i.toNat + x.toNat) % 0x1000 else (i.toNat + x.toNat) % 0x10000 := by
  cases mask12
  · rfl
  · rw [indexSum, if_pos rfl, if_pos rfl, BitVec.toNat_ofNat]
    omega

/-- The three ends of FX1E: the flag set, the flag cleared, or VF left as it was. -/
theorem addIndex_getV (s : State) (mask12 clearVf : Bool) (x k : RegIx) : (s.addIndex mask12 clearVf x).getV k =
    if k = 0xF#4 ∧ s.i.toNat + (s.getV x).toNat > 0xFFF then 0x01#8
    else if k = 0xF#4 ∧ clearVf = true then 0x00#8 else s.getV k := by
  by_cases overflow : s.i.toNat + (s.getV x).toNat > 0xFFF
  · by_cases flag : k = 0xF#4 <;> simp [State.addIndex, indexOverflow, overflow, flag, flagByte]
  · cases clearVf <;> by_cases flag : k = 0xF#4 <;> simp [State.addIndex, indexOverflow, overflow, flag, flagByte]

theorem addIndex_frame (s : State) (mask12 clearVf : Bool) (x : RegIx) : s.addIndex mask12 clearVf x =
    { s with i := indexSum mask12 s.i (s.getV x), v := (s.addIndex mask12 clearVf x).v } := by
  unfold State.addIndex
  dsimp only
  split_ifs <;> rfl

/-- Settles O44: the sum goes to I whole, and the flag follows from the same sum. -/
theorem addToIndex : Obligations.AddToIndex := by
  unfold Obligations.AddToIndex
  refine ⟨Alu.encodes_of_mem (by simp [opcodeMap, mapF]), fun x s => rfl, fun mask12 clearVf x s => ?_⟩
  have idx : (s.addIndex mask12 clearVf x).i = indexSum mask12 s.i (s.getV x) := by rw [addIndex_frame]
  refine ⟨?_, ?_, addIndex_getV s mask12 clearVf x⟩
  · rw [idx]
    exact addIndex_frame s mask12 clearVf x
  · rw [idx]
    exact indexSum_toNat ..

/-! ### FX33 and FX55 (R173, R174) -/

theorem exec_ldB {x : RegIx} {s : State} (fits : s.i.toNat + 2 ≤ 0xFFF) : exec (.ldB x) s = .next (completed (.ldB x) s) :=
  exec_of_completes fun _ _ raised => by cases raised; omega

theorem exec_storeRegs {x : RegIx} {s : State} (fits : s.i.toNat + x.toNat ≤ 0xFFF) :
    exec (.storeRegs x) s = .next (completed (.storeRegs x) s) :=
  exec_of_completes fun _ _ raised => by cases raised; omega

theorem exec_loadRegs {x : RegIx} {s : State} (fits : s.i.toNat + x.toNat ≤ 0xFFF) :
    exec (.loadRegs x) s = .next (completed (.loadRegs x) s) :=
  exec_of_completes fun _ _ raised => by cases raised; omega

theorem stored_digits_get {x : RegIx} {s : State} (fits : s.i.toNat + 2 ≤ 0xFFF) (a : Nat) :
    (completed (.ldB x) s).mem.get a =
      if a = s.i.toNat then BitVec.ofNat 8 ((s.getV x).toNat / 100)
      else if a = s.i.toNat + 1 then BitVec.ofNat 8 ((s.getV x).toNat / 10 % 10)
      else if a = s.i.toNat + 2 then BitVec.ofNat 8 ((s.getV x).toNat % 10)
      else s.mem.get a := by
  have room : s.i.toNat + (bcdDigits (s.getV x)).length ≤ Config.memSize := by
    simp only [bcdDigits, List.length_cons, List.length_nil, Config.memSize]
    omega
  refine (Memory.get_setBytes _ _ _ room a).trans ?_
  by_cases hundreds : a = s.i.toNat
  · simp [hundreds, bcdDigits]
  by_cases tens : a = s.i.toNat + 1
  · simp [tens, bcdDigits]
  by_cases units : a = s.i.toNat + 2
  · simp [units, bcdDigits]
  have outside : ¬ (s.i.toNat ≤ a ∧ a < s.i.toNat + (bcdDigits (s.getV x)).length) := by
    simp only [bcdDigits, List.length_cons, List.length_nil]
    omega
  rw [if_neg outside, if_neg hundreds, if_neg tens, if_neg units]

theorem stored_regs_get {x : RegIx} {s : State} (fits : s.i.toNat + x.toNat ≤ 0xFFF) (a : Nat) :
    (completed (.storeRegs x) s).mem.get a =
      if s.i.toNat ≤ a ∧ a ≤ s.i.toNat + x.toNat then s.getV (BitVec.ofNat 4 (a - s.i.toNat)) else s.mem.get a := by
  have len := s.firstRegs_length x
  have room : s.i.toNat + (s.firstRegs x).length ≤ Config.memSize := by
    rw [len, Config.memSize]
    omega
  refine (Memory.get_setBytes _ _ _ room a).trans ?_
  rw [len]
  by_cases inSpan : s.i.toNat ≤ a ∧ a ≤ s.i.toNat + x.toNat
  · rw [if_pos inSpan, if_pos (by omega), State.firstRegs_getD _ _ _ (by omega)]
  · rw [if_neg inSpan, if_neg (by omega)]

/-- Settles O45: a span write of three digits when the span fits, else the fault. -/
theorem decimalStore : Obligations.DecimalStore := by
  unfold Obligations.DecimalStore
  exact ⟨Alu.encodes_of_mem (by simp [opcodeMap, mapF]), fun x s =>
    ⟨fun fits => ⟨_, exec_ldB fits, rfl, stored_digits_get fits⟩, fun past => exec_faults (.ldB past)⟩⟩

/-- Settles O46: a span write of the registers when the span fits, else the fault. -/
theorem storeRegisters : Obligations.StoreRegisters := by
  unfold Obligations.StoreRegisters
  exact ⟨Alu.encodes_of_mem (by simp [opcodeMap, mapF]), fun x s =>
    ⟨fun fits => ⟨_, exec_storeRegs fits, rfl, stored_regs_get fits⟩, fun past => exec_faults (.storeRegs past)⟩⟩

/-! ### FX65 and what was stored (R175, spec/20_memory.md R65) -/

/-- Settles O47: the file loaded from the span when it fits, else the fault. -/
theorem loadRegisters : Obligations.LoadRegisters := by
  unfold Obligations.LoadRegisters
  exact ⟨Alu.encodes_of_mem (by simp [opcodeMap, mapF]), fun x s =>
    ⟨fun fits => ⟨_, exec_loadRegs fits, rfl, completed_loadRegs_getV s x⟩, fun past => exec_faults (.loadRegs past)⟩⟩

/-- Settles O48: the load of Vk reads the byte that the store put k bytes above I. -/
theorem storedRegistersLoadBack : Obligations.StoredRegistersLoadBack := by
  unfold Obligations.StoredRegistersLoadBack
  intro x s t u w fits stored sameButV loaded k
  cases (exec_storeRegs fits).symm.trans stored
  have idx : u.i = s.i := (congrArg State.i sameButV).trans rfl
  have mem : u.mem = (completed (.storeRegs x) s).mem := (congrArg State.mem sameButV).trans rfl
  cases (exec_loadRegs (idx ▸ fits)).symm.trans loaded
  rw [completed_loadRegs_getV, idx, mem, stored_regs_get fits]
  refine if_ctx_congr Iff.rfl (fun le => ?_) fun _ => rfl
  rw [if_pos (by omega), Nat.add_sub_cancel_left, BitVec.ofNat_toNat, BitVec.setWidth_eq]

/-- The iteration of a running block whose two bytes at PC are known. -/
theorem step_of_bytes {s : State} {hi lo : Byte} (running : s.run = .running) (fits : s.pc.toNat + 1 ≤ 0xFFF)
    (high : s.mem.get s.pc.toNat = hi) (low : s.mem.get (s.pc.toNat + 1) = lo) :
    step s = closeIteration (exec (decode (hi ++ lo)) { advanced s with pc := s.pc + 2#16 }) := by
  rw [← high, ← low]
  exact Steps.step_fetch_fits running fits

/-- Settles O49: the two bytes at PC are those the store left, and the step decodes what it fetches. -/
theorem storedWordIsFetched : Obligations.StoredWordIsFetched := by
  unfold Obligations.StoredWordIsFetched
  refine ⟨fun x s t u fits stored running pcFits high low => ?registers, fun x s t u fits stored running pcFits high low => ?digits⟩
  case registers =>
    cases (exec_storeRegs fits).symm.trans stored
    rw [stored_regs_get fits] at high low
    exact step_of_bytes running pcFits high low
  case digits =>
    cases (exec_ldB fits).symm.trans stored
    rw [stored_digits_get fits] at high low
    exact step_of_bytes running pcFits high low

end Sys2Proof.Transfer
end

section
/-! SUPPORT and proofs of O51 and O53: the sprite. What the compositor does to every pixel is `drawSprite_effect`; here its row bytes
are those of the statements (`spriteRows_eq_rowBytes`), and drawing twice is XOR twice. -/

namespace Sys2Proof.Sprite

open Sys2Proof Sys2Proof.Machine Sys2Proof.Claims Sys2Proof.Exec Sys2Proof.Instructions

/-- The bits of the sprite that DXYN draws, over the grid. -/
def drawnBit (s : State) (x y : RegIx) (n : Nibble) : Nat → Nat → Bool :=
  spriteBit (rowBytes s n ((s.getV y).toNat % 32)) ((s.getV x).toNat % 64) ((s.getV y).toNat % 32)

theorem spriteRows_eq_rowBytes (s : State) (n : Nibble) (y0 : Nat) : s.spriteRows (min n.toNat (32 - y0)) = rowBytes s n y0 := by
  have len := Memory.getBytes_length s.mem (min n.toNat (32 - y0)) s.i.toNat
  rw [State.spriteRows]
  refine List.ext_getElem (by simp [rowBytes, len]) fun k lt _ => ?_
  have lt' : k < min n.toNat (32 - y0) := len ▸ lt
  have byte := Memory.getBytes_getD s.mem (min n.toNat (32 - y0)) s.i.toNat k lt'
  rw [List.getD_eq_getElem _ _ lt] at byte
  simpa [rowBytes] using byte

theorem completed_drw_eq (x y : RegIx) (n : Nibble) (s : State) : ∃ coll : Bool, ∃ fb : Framebuffer,
    completed (.drw x y n) s = { s with fb := fb, v := (s.setV vf (flagByte coll)).v, present := true } ∧
    (∀ cx cy, fb.pixel cx cy = (s.fb.pixel cx cy ^^ drawnBit s x y n cx cy)) ∧
    (coll = true ↔ ∃ cx cy, drawnBit s x y n cx cy = true ∧ s.fb.pixel cx cy = true) := by
  obtain ⟨pixels, collides⟩ := drawSprite_effect s.fb ((s.getV x).toNat % 64) ((s.getV y).toNat % 32)
    (rowBytes s n ((s.getV y).toNat % 32))
  refine ⟨_, _, ?_, pixels, collides⟩
  rw [completed, State.composeSprite_eq, spriteRows_eq_rowBytes]

theorem drw_getV {x y : RegIx} {n : Nibble} {s : State} {fb : Framebuffer} {coll : Bool}
    (draws : completed (.drw x y n) s = { s with fb := fb, v := (s.setV vf (flagByte coll)).v, present := true }) (k : RegIx) :
    (completed (.drw x y n) s).getV k = if k = 0xF#4 then flagByte coll else s.getV k := by
  rw [draws]
  exact State.setV_getV s vf (flagByte coll) k

/-- Settles O51: the effect of the compositor on the pixels, and VF as its collision. -/
theorem drawComposesSprite : Obligations.DrawComposesSprite := by
  unfold Obligations.DrawComposesSprite
  refine ⟨Alu.encodes_of_mem (by simp [opcodeMap, mapHigh]), fun x y n s fits => ?_⟩
  obtain ⟨coll, fb, draws, pixels, collides⟩ := completed_drw_eq x y n s
  have regs := drw_getV draws
  refine ⟨_, execDrw_of_fits fits, ?frame, ?pixels, ?registers, ?flag, ?collision⟩
  case frame => rw [draws]
  case pixels =>
    rw [draws]
    exact pixels
  case registers => exact fun k other => (regs k).trans (if_neg other)
  case flag => cases coll <;> simp [regs, flagByte]
  case collision =>
    rw [regs, if_pos rfl]
    refine Iff.trans ?_ collides
    cases coll <;> simp [flagByte]

/-- A block that presents after DXYN has drawn: a fault puts present down. -/
theorem eq_completed_of_present {x y : RegIx} {n : Nibble} {s t : State} (next : exec (.drw x y n) s = .next t)
    (present : t.present = true) : rowsInMemory s n ((s.getV y).toNat % 32) ∧ t = completed (.drw x y n) s := by
  by_cases fits : rowsInMemory s n ((s.getV y).toNat % 32)
  · cases (execDrw_of_fits fits).symm.trans next
    exact ⟨fits, rfl⟩
  · cases (exec_of_raises (.drw fits)).symm.trans next
    simp at present

/-- Settles O53: the second draw has the rows and the position of the first, so it flips the same pixels back. -/
theorem drawTwiceRestores : Obligations.DrawTwiceRestores := by
  unfold Obligations.DrawTwiceRestores
  intro x y n s t u draw present sameX sameY redraw
  obtain ⟨fits, drawn⟩ := eq_completed_of_present draw present
  obtain ⟨_, fb, draws, pixels, -⟩ := completed_drw_eq x y n s
  obtain ⟨coll, fb', draws', pixels', collides⟩ := completed_drw_eq x y n t
  have i : t.i = s.i := by rw [drawn, draws]
  have mem : t.mem = s.mem := by rw [drawn, draws]
  have tfb : t.fb = fb := by rw [drawn, draws]
  have fits' : rowsInMemory t n ((t.getV y).toNat % 32) := by
    rw [sameY]
    simpa only [rowsInMemory, i] using fits
  cases (execDrw_of_fits fits').symm.trans redraw
  have bits : drawnBit t x y n = drawnBit s x y n := by simp only [drawnBit, rowBytes, sameX, sameY, i, mem]
  rw [bits, tfb] at pixels' collides
  refine ⟨?restored, fun off ⟨cx, cy, bit⟩ => ?flag⟩
  case restored =>
    rw [draws']
    refine Framebuffer.ext_pixel fun cx cy _ _ => ?_
    rw [pixels', pixels, Bool.xor_assoc, Bool.xor_self, Bool.xor_false]
  case flag =>
    have on : fb.pixel cx cy = true := by rw [pixels, off cx cy bit, Bool.false_xor]; exact bit
    rw [drw_getV draws', if_pos rfl, collides.mpr ⟨cx, cy, bit, on⟩]
    rfl

end Sys2Proof.Sprite
end

section
/-! SUPPORT and proofs of O54 to O56 and O59: the timers and the keys. -/

namespace Sys2Proof.TimersKeys

open Sys2Proof Sys2Proof.Machine Sys2Proof.Claims Sys2Proof.Exec Sys2Proof.Instructions

/-! ### Timers (spec/45_timers.md R211 to R215) -/

theorem vFile_readDelay (s : State) (f : Nat) (x : RegIx) :
    VFile s (s.readDelay f x) (withReg s x (BitVec.ofNat 8 (s.dt / 2 ^ f))) :=
  ⟨s.readDelay_frame f x, s.readDelay_getV f x⟩

/-- Settles O54: a byte shifted up by the fraction bits and down again is the byte. -/
theorem timerInstructions : Obligations.TimerInstructions := by
  unfold Obligations.TimerInstructions
  refine ⟨Alu.encodes_of_mem (by simp [opcodeMap, mapF]), Alu.encodes_of_mem (by simp [opcodeMap, mapF]),
    Alu.encodes_of_mem (by simp [opcodeMap, mapF]), fun x s =>
      ⟨⟨_, rfl, vFile_readDelay ..⟩, congrArg _ (s.setDelay_eq _ x), congrArg _ (s.setSound_eq _ x), fun y t u set read => ?_⟩⟩
  cases set
  cases read
  rw [State.readDelay_getV, if_pos rfl, State.setDelay_eq]
  simp

/-- Any number of advances take their sum from both timers. -/
theorem foldl_advanceTimers (es : List Nat) : ∀ s : State,
    es.foldl State.advanceTimers s = { s with dt := s.dt - es.sum, st := s.st - es.sum } := by
  induction es with
  | nil => intro s; rfl
  | cons e es ih =>
    intro s
    rw [List.foldl_cons, ih, State.advanceTimers_eq, List.sum_cons]
    simp only [Nat.sub_sub]

/-- Settles O59: the operations at every fraction, and the advances as one subtraction. -/
theorem timersUnderEveryFraction : Obligations.TimersUnderEveryFraction := by
  unfold Obligations.TimersUnderEveryFraction
  refine ⟨fun x s => ⟨rfl, rfl, rfl⟩, fun f x s => ⟨vFile_readDelay s f x, s.setDelay_eq f x, s.setSound_eq f x⟩,
    fun f x y es s => ?everyFraction, fun x y es s => ?fixedRate⟩
  case everyFraction =>
    simp only [foldl_advanceTimers, State.readDelay_getV, State.setDelay_eq, State.setSound_eq]
    exact ⟨rfl, if_pos trivial⟩
  case fixedRate => simp [foldl_advanceTimers, State.setDelay_eq]

/-! ### Keys (spec/46_input.md R232 to R236) -/

/-- Settles O55: the skip of R123 by the key's bit, or the fault above 0x0F. -/
theorem skipOnKey : Obligations.SkipOnKey := by
  unfold Obligations.SkipOnKey
  exact ⟨Alu.encodes_of_mem (by simp [opcodeMap, mapHigh]), Alu.encodes_of_mem (by simp [opcodeMap, mapHigh]), fun x s =>
    ⟨fun key => ⟨congrArg _ (skipOnKey_of_key key true), congrArg _ (skipOnKey_of_key key false)⟩,
      fun noKey => ⟨exec_faults (.skp noKey), exec_faults (.sknp noKey)⟩⟩⟩

theorem exec_ldVxK (x : RegIx) (s : State) : exec (.ldVxK x) s = .next (completed (.ldVxK x) s) := execLdVxK_eq x s

/-- Settles O56: of the two ends of the scan, the first has no completed key, and the second completes the least one. -/
theorem waitForKeyRelease : Obligations.WaitForKeyRelease := by
  unfold Obligations.WaitForKeyRelease
  refine ⟨Alu.encodes_of_mem (by simp [opcodeMap, mapF]), fun x s => ⟨fun noEdge => ?replay, fun k lt edge least => ?release⟩⟩
  case replay =>
    obtain ⟨none, -, bits⟩ | ⟨k, -, lt, edge, -⟩ := keyScan_cases s
    · have shadow : (keyScan s).1 = s.shadow ||| s.input.keys :=
        BitVec.eq_of_getLsbD_eq fun j lt => by rw [bits j lt, BitVec.getLsbD_or]
      rw [exec_ldVxK, completed, none, shadow]
      rfl
    · simp [noEdge k lt] at edge
  case release =>
    obtain ⟨-, noEdge, -⟩ | ⟨k', some, lt', edge', least', bits⟩ := keyScan_cases s
    · simp [noEdge k lt] at edge
    · have same : k' = k := by
        rcases lt_trichotomy k' k with below | same | above
        · simp [least k' below] at edge'
        · exact same
        · simp [least' k above] at edge
      subst same
      refine ⟨_, exec_ldVxK x s, ?_, ?_, bits⟩
      · rw [completed, some]
        rfl
      · rw [completed, some]
        exact State.setV_getV s x (BitVec.ofNat 8 k')

end Sys2Proof.TimersKeys
end

section
/-! SUPPORT and proofs of O16, O17, O57 and O58: reset and program load (spec/70_reset_and_hazards.md R280 to R282). -/

namespace Sys2Proof.Loading

open Sys2Proof Sys2Proof.Machine Sys2Proof.Claims

theorem load_of_fits {program : List Byte} (fits : program.length ≤ 0xE00) (s : State) (font : FontTable) :
    s.load font program =
      { s with
        mem := (fontMemory font).setBytes 0x200 program, v := Vector.replicate 16 0x00#8, i := 0x0000#16, pc := 0x0200#16,
        sp := ⟨0, by decide⟩, dt := 0, st := 0, fb := Framebuffer.clear, shadow := 0x0000#16, present := false, run := .running } := by
  obtain ⟨-, loads⟩ | ⟨past, -⟩ := s.load_cases font program
  · exact loads
  · omega

theorem load_of_past {program : List Byte} (past : 0xE00 < program.length) (s : State) (font : FontTable) :
    s.load font program =
      { s with
        mem := fontMemory font, present := false, run := .faulted ⟨.loadOverflow, none, none, some program.length⟩ } := by
  obtain ⟨fits, -⟩ | ⟨-, overflows⟩ := s.load_cases font program
  · omega
  · exact overflows

/-- A running block with an empty stack at the first address of a program meets every bound. -/
theorem inv_of_start {s : State} (running : s.run = .running) (pc : s.pc = 0x0200#16) (sp : s.sp.val = 0) (dt : s.dt = 0)
    (st : s.st = 0) (canonical : s.mem.wf) : Inv s where
  control := ⟨by rw [pc]; decide, fun k used => by omega⟩
  timers := ⟨dt ▸ Nat.zero_le _, st ▸ Nat.zero_le _⟩
  memory := canonical
  fault := fun r faulted => by simp [running] at faulted

/-- Settles O16: both states are those of a block at the start of a program. -/
theorem resetAndLoadMeetInvariants : Obligations.ResetAndLoadMeetInvariants := by
  unfold Obligations.ResetAndLoadMeetInvariants
  refine ⟨inv_of_start rfl rfl rfl rfl rfl Memory.wf_nil, fun s font program fits => ?_⟩
  rw [load_of_fits fits]
  exact inv_of_start rfl rfl rfl rfl rfl (Memory.wf_setBytes _ _ _ (fontMemory_wf font))

theorem getV_replicate {s : State} (zero : s.v = Vector.replicate 16 0x00#8) (k : RegIx) : s.getV k = 0x00#8 := by
  simp [State.getV, zero]

theorem resetByte_font (k : Fin 80) : resetByte (0x050 + k.val) = Config.fontTable[k.val] := by
  have inFont : Config.fontBase ≤ 0x050 + k.val ∧ 0x050 + k.val - Config.fontBase < 80 := by
    simp [Config.fontBase]
  rw [resetByte, dif_pos inFont]
  simp [Config.fontBase]

theorem resetByte_outside {a : Nat} (outside : a < 0x050 ∨ 0x0A0 ≤ a) : resetByte a = 0x00#8 := by
  refine dif_neg ?_
  rw [Config.fontBase]
  omega

/-- Settles O17: memory lists nothing, so every byte reads as its reset contents. -/
theorem resetState : Obligations.ResetState := by
  unfold Obligations.ResetState
  exact ⟨rfl, rfl, rfl, getV_replicate rfl, rfl, rfl, rfl, rfl, Framebuffer.pixel_clear, fun a low => resetByte_outside (.inl low),
    resetByte_font, fun a high => resetByte_outside (.inr high)⟩

/-- Settles O57: the program is a span write over the font memory. -/
theorem loadPlacesProgram : Obligations.LoadPlacesProgram := by
  unfold Obligations.LoadPlacesProgram
  intro s font program fits t
  have room : 0x200 + program.length ≤ Config.memSize := by
    rw [Config.memSize]
    omega
  have loaded : t = _ := load_of_fits fits s font
  rw [loaded]
  refine ⟨fun a _ => ?_, getV_replicate rfl, Framebuffer.pixel_clear, rfl, rfl⟩
  rw [← fontMemory_get]
  exact Memory.get_setBytes program (fontMemory font) 0x200 room a

/-- Settles O58: a faulted block, so the next iteration is idle. -/
theorem loadOverflowStopsTheBlock : Obligations.LoadOverflowStopsTheBlock := by
  unfold Obligations.LoadOverflowStopsTheBlock
  intro s font program past t
  have loaded : t = _ := load_of_past past s font
  rw [loaded]
  exact ⟨fun a _ => fontMemory_get font a, rfl, Steps.step_stopped rfl⟩

end Sys2Proof.Loading
end
